-- ==== Sys2Proof/Word.lean ====
section
/-! DEFINITION. The word types of the CCU and the value a port access carries to the host. -/

namespace Sys2Proof

/-- A `u8`: one window byte, one opcode (00_scope.md R10, 30_encoding.md R70). -/
abbrev Byte := BitVec 8

/-- One value of the decided format `FP`, IEEE 754 binary64, as its 64 bits (42_compensation.md R131). -/
abbrev F64 := BitVec 64

/-- What a host read returns: one register, whole, in the register's own type (20_memory.md R55, 43_control.md R163).
The constructor is the type, the argument its bits (log entry 16). -/
inductive PortValue where
  /-- A window byte, STATUS, H1, H3. -/
  | u8 (v : BitVec 8)
  /-- H6. -/
  | s8 (v : BitVec 8)
  /-- T1, P1, ADC_H. -/
  | u16 (v : BitVec 16)
  /-- T2, T3, P2 to P9, H2, H4, H5. -/
  | s16 (v : BitVec 16)
  /-- ADC_P, ADC_T. -/
  | u20 (v : BitVec 20)
  /-- T_FINE. -/
  | s32 (v : BitVec 32)
  /-- TEMP_C, TEMP_F, PRESS_PA, HUM_PCT. -/
  | fp (v : F64)
  deriving DecidableEq, Repr, Inhabited

end Sys2Proof
end

