-- ==== Sys2Proof/Syntax.lean ====
section
/-! DEFINITION. The commands of the CCU: one constructor per row of spec/opcode_table.json. -/

namespace Sys2Proof

/-- The four commands (30_encoding.md R71). No command has an operand: all are implicit (R70). -/
inductive Instr where
  /-- LDCAL: decode windows A and B into the 18 coefficients (40_calibration_decode.md R100). -/
  | ldcal
  /-- LDRAW: unpack window D into ADC_P, ADC_T, ADC_H (41_raw_unpack.md R120). -/
  | ldraw
  /-- COMP: run stages T, P, H (42_compensation.md R130). -/
  | comp
  /-- CLR: end the session, clear every valid bit (43_control.md R160). -/
  | clr
  deriving DecidableEq, Repr

end Sys2Proof
end

