-- ==== Sys2Proof/Decode.lean ====
section
/-! DEFINITION. The opcode map, the decoder, and after it the encoder (30_encoding.md R70 to R72). -/

namespace Sys2Proof

/-- Why a CMD value is no command. -/
inductive DecodeError where
  /-- The value is one of 0x00 and 0x05 to 0xFF, which R72 reserves. -/
  | reserved (v : Byte)
  deriving DecidableEq, Repr

/-- One row of the opcode map: a value v is the command if `v &&& mask = pattern`. -/
structure OpcodeRow where
  mask : Byte
  pattern : Byte
  instr : Instr
  deriving DecidableEq, Repr

/-- The opcode map, parameter `OPC` (30_encoding.md R71, spec/opcode_table.json). -/
def opcodeTable : List OpcodeRow :=
  [⟨0xFF#8, 0x01#8, .ldcal⟩, ⟨0xFF#8, 0x02#8, .ldraw⟩, ⟨0xFF#8, 0x03#8, .comp⟩, ⟨0xFF#8, 0x04#8, .clr⟩]

/-- The command a CMD value is. All 8 bits are the opcode (R70); a reserved value (R72) is refused by name. -/
def decode (v : Byte) : Except DecodeError Instr :=
  match opcodeTable.find? (fun row => v &&& row.mask == row.pattern) with
  | some row => .ok row.instr
  | none => .error (.reserved v)

/-- The opcode of a command (30_encoding.md R71). -/
def encode : Instr → Byte
  | .ldcal => 0x01#8
  | .ldraw => 0x02#8
  | .comp => 0x03#8
  | .clr => 0x04#8

/-- The decoder on a table word: the instruction is the first byte, and every bit from `nbits` up is 0. -/
def decodeTableWord (nbits w : Nat) : Option Instr :=
  (decode (BitVec.ofNat 8 (w % 2 ^ nbits))).toOption

end Sys2Proof
end

