-- ==== Sys2Proof/Config.lean ====
section
/-! DEFINITION. What an implementation fixes, and the free values of the CCU.

The named parameters of 00_scope.md R8, and where each stands in the model at the value the spec decides (log entry 15):
`FP` is the record `Config.Arith`, instantiated by `Binary64.arith` (Machine/Float.lean);
`TFINE_W` is the width 32 of `Ccu.tFine`; `DIV0` is in `Ccu.writeOutputs`; `TFINE_ROUND` is in `stageT`;
`RELOAD` is in `Ccu.loadCalibration`; `PORTMAP` is `portMap`; `OPC` is `opcodeTable`; `XLSB_NIBBLE` is in `adc20`;
`PRESS_POLY` is `pressDen` and `pressPoly`; `HUM_POLY` is `humPoly`.
`PORT_BUS` is open and no rule depends on it. -/

namespace Sys2Proof

/-- Parameter `FP` (00_scope.md R8, R11, R131, 92_eei_decisions.md D5): the one floating-point arithmetic that every
stage uses. Each operation is one rounded operation. A decimal literal q is given as the fraction `num / den`. -/
structure Config.Arith where
  /-- The rounded sum. -/
  fadd : F64 → F64 → F64
  /-- The rounded difference. -/
  fsub : F64 → F64 → F64
  /-- The rounded product. -/
  fmul : F64 → F64 → F64
  /-- The rounded quotient. -/
  fdiv : F64 → F64 → F64
  /-- The conversion of an integer. -/
  fofint : Int → F64
  /-- The conversion of the literal `num / den`. -/
  flit : (num : Int) → (den : Nat) → F64
  /-- The greatest integer not above a finite value. -/
  ffloor : F64 → Int
  /-- Numerical equality. -/
  feq : F64 → F64 → Bool
  /-- Numerical less-than. -/
  flt : F64 → F64 → Bool
  /-- Numerical greater-than. -/
  fgt : F64 → F64 → Bool

/-- FREE VALUE (93_implementation_defined.md U1, log entry 6): the bits that the n-th draw gives a host read of a
register that holds no value. The read takes as many low bits as the register's type has. -/
opaque Config.freeBits : Nat → BitVec 64

/-- FREE VALUE (93_implementation_defined.md U3, log entry 7): what the n-th draw gives a host read of CMD or of an
unmapped address, for which the spec gives no type either. -/
opaque Config.freeRead : Nat → PortValue

/-- FREE VALUE (log entry 10): the bits of a NaN result beyond those that make it a quiet NaN, by the operands.
The spec gives no rule for NaN; 42_compensation.md R145 says that none is ever produced. -/
opaque Config.freeNan : F64 → F64 → F64

/-- FREE VALUE (log entry 11): the floor of an infinity or a NaN. 00_scope.md R11 defines `ffloor` for finite values
only, and 42_compensation.md R145 says that no other value ever arises. -/
opaque Config.freeFloor : F64 → Int

end Sys2Proof
end

