-- ==== Sys2Proof/Machine/State.lean ====
section
/-! DEFINITION. The state of the CCU (10_state.md R20), the host's side of its port, and the state after reset. -/

namespace Sys2Proof.Machine

/-- The names of the 18 coefficient registers (10_state.md R21). -/
inductive Coef where
  | t1 | t2 | t3
  | p1 | p2 | p3 | p4 | p5 | p6 | p7 | p8 | p9
  | h1 | h2 | h3 | h4 | h5 | h6
  deriving DecidableEq, Repr

/-- The registers a port address can name (20_memory.md R51). -/
inductive Reg where
  /-- The window byte A[k]. -/
  | a (k : Fin 26)
  /-- The window byte B[k]. -/
  | b (k : Fin 7)
  /-- The window byte D[k]. -/
  | d (k : Fin 8)
  /-- CMD: write-only, stores nothing (10_state.md R29). -/
  | cmd
  /-- STATUS: a read-only view (10_state.md R30). -/
  | status
  /-- A coefficient register. -/
  | coef (c : Coef)
  | adcP | adcT | adcH
  | tFine | tempC | tempF | pressPa | humPct
  deriving DecidableEq, Repr

/-- The result codes of a command (10_state.md R31). Code 7 is reserved and has no name. -/
inductive ErrCode where
  | ok | illCmd | short | locked | noCal | noRaw | div0
  deriving DecidableEq, Repr

/-- One action of the host on the CCU (00_scope.md R6): it can do exactly these three things. -/
inductive Access where
  /-- Write `value` to the port register at `addr`. A window byte and CMD take `value[7:0]` (43_control.md R162);
  the width of the bus is open (`PORT_BUS`), so the value is a number of any size (log entry 3). -/
  | write (addr : BitVec 8) (value : Nat)
  /-- Read the port register at `addr` (43_control.md R163). -/
  | read (addr : BitVec 8)
  /-- Assert reset (70_reset_and_hazards.md R190). -/
  | reset
  deriving DecidableEq, Repr

/-- The coefficient file (10_state.md R21). Signed registers are held in two's complement (R10). -/
structure CoefFile where
  t1 : BitVec 16
  t2 : BitVec 16
  t3 : BitVec 16
  p1 : BitVec 16
  p2 : BitVec 16
  p3 : BitVec 16
  p4 : BitVec 16
  p5 : BitVec 16
  p6 : BitVec 16
  p7 : BitVec 16
  p8 : BitVec 16
  p9 : BitVec 16
  h1 : BitVec 8
  h2 : BitVec 16
  h3 : BitVec 8
  h4 : BitVec 16
  h5 : BitVec 16
  h6 : BitVec 8
  deriving DecidableEq, Repr

/-- The ADC registers ADC_P, ADC_T and ADC_H, all unsigned (10_state.md R23). -/
structure AdcFile where
  p : BitVec 20
  t : BitVec 20
  h : BitVec 16
  deriving DecidableEq, Repr

/-- The three windows and their valid bits (10_state.md R28). -/
structure Windows where
  a : Vector Byte 26
  b : Vector Byte 7
  d : Vector Byte 8
  av : Vector Bool 26
  bv : Vector Bool 7
  dv : Vector Bool 8
  deriving DecidableEq, Repr

/-- The whole state of the CCU (10_state.md R20). A register whose valid condition is false holds no value (R35): what
stands in its field is then never read by a command and never returned to the host. -/
structure Ccu where
  coef : CoefFile
  adc : AdcFile
  /-- T_FINE, signed, `TFINE_W` = 32 bits (10_state.md R25). -/
  tFine : BitVec 32
  /-- TEMP_C, in degrees Celsius (10_state.md R26). -/
  tempC : F64
  /-- TEMP_F, in degrees Fahrenheit (10_state.md R26). -/
  tempF : F64
  /-- PRESS_PA, in pascals (10_state.md R26, 90_conflicts.md C5). -/
  pressPa : F64
  /-- HUM_PCT, relative humidity in percent (10_state.md R26). -/
  humPct : F64
  win : Windows
  /-- CALV: the coefficients hold a value (10_state.md R22). -/
  calv : Bool
  /-- RAWV: the ADC registers hold a value (10_state.md R24). -/
  rawv : Bool
  /-- TV: T_FINE, TEMP_C and TEMP_F hold a value (10_state.md R27). -/
  tv : Bool
  /-- PV: PRESS_PA holds a value (10_state.md R27). -/
  pv : Bool
  /-- HV: HUM_PCT holds a value (10_state.md R27). -/
  hv : Bool
  /-- ERR: the result code of the most recent command (10_state.md R31). -/
  err : BitVec 3
  deriving DecidableEq, Repr

/-- What one COMP computes (42_compensation.md R130, R143): the values it writes. There is no pressure where the
denominator is zero (R139). -/
structure Outputs where
  tFine : BitVec 32
  tempC : F64
  tempF : F64
  press : Option F64
  humPct : F64
  deriving DecidableEq, Repr

/-- The host's side of the port: the model's own fields, no registers of the CCU (log entries 1, 2 and 8). -/
structure HostSide where
  /-- The accesses the host makes that have not been performed yet, oldest first. -/
  pending : List Access
  /-- What the host's reads have returned, newest first. -/
  replies : List PortValue
  /-- How many free values have been drawn. Nothing but the free values depends on it. -/
  draws : Nat
  deriving DecidableEq, Repr

/-- The state of the whole machine: the CCU and the host's side of its port (00_scope.md R6). -/
structure State where
  ccu : Ccu
  host : HostSide
  deriving DecidableEq, Repr

/-- Why the machine stops: never. "The CCU never enters a handler, never stops, and accepts the next port access in
every state" (60_exceptions.md R170), so the type has no constructor (log entry 22). An error of a command is a code in
ERR, not a fault. -/
inductive Fault where
  deriving DecidableEq, Repr

/-- Why a step has no meaning. -/
inductive Refusal where
  /-- An instruction without a meaning in the model. Raised by nothing: every arm of `exec` is a meaning. Safe. -/
  | notModelled (mnemonic : String)
  deriving DecidableEq, Repr

/-- The contents of the coefficient file at reset. They are unspecified (10_state.md R36); zero is the model's choice
(log entry 4). -/
def CoefFile.reset : CoefFile :=
  { t1 := 0, t2 := 0, t3 := 0, p1 := 0, p2 := 0, p3 := 0, p4 := 0, p5 := 0, p6 := 0, p7 := 0, p8 := 0, p9 := 0,
    h1 := 0, h2 := 0, h3 := 0, h4 := 0, h5 := 0, h6 := 0 }

/-- The windows at reset: every valid bit 0 (10_state.md R36); the bytes are unspecified, zero is the model's choice
(log entry 4). -/
def Windows.reset : Windows :=
  { a := Vector.replicate 26 0, b := Vector.replicate 7 0, d := Vector.replicate 8 0,
    av := Vector.replicate 26 false, bv := Vector.replicate 7 false, dv := Vector.replicate 8 false }

/-- The CCU after reset (10_state.md R36): every flag 0, every valid bit 0, ERR = OK, every data register holding no
value (its contents are the model's choice, log entry 4). -/
def Ccu.reset : Ccu :=
  { coef := CoefFile.reset, adc := { p := 0, t := 0, h := 0 },
    tFine := 0, tempC := 0, tempF := 0, pressPa := 0, humPct := 0,
    win := Windows.reset,
    calv := false, rawv := false, tv := false, pv := false, hv := false, err := 0 }

/-- The machine right after reset: the CCU waits for port accesses (70_reset_and_hazards.md R191), and the host has
made none yet (log entry 1). -/
def State.reset : State :=
  { ccu := Ccu.reset, host := { pending := [], replies := [], draws := 0 } }

end Sys2Proof.Machine
end

