-- ==== Sys2Proof/Machine/Operands.lean ====
section
/-! DEFINITION. Operand forms: how window bytes become fields (30_encoding.md R76 to R81), how port addresses name
registers (20_memory.md R51), and what a register's contents are as a port value.

In a product the literal stands first: the kernel then never unfolds it one unit at a time where the other factor is not
known. -/

namespace Sys2Proof.Machine

/-- R76: the unsigned integer `lo + hi × 256` of a little-endian pair. -/
def u16le (lo hi : Byte) : Nat := lo.toNat + 256 * hi.toNat

/-- R76: the signed integer of a little-endian pair; a value above 32767 becomes `value − 65536`. -/
def s16le (lo hi : Byte) : Int :=
  if u16le lo hi ≤ 32767 then (u16le lo hi : Int) else (u16le lo hi : Int) - 65536

/-- R77: a byte as it is, without sign extension. -/
def u8 (b : Byte) : Nat := b.toNat

/-- R77: a byte above 127 becomes `value − 256`. -/
def s8 (b : Byte) : Int := if b.toNat ≤ 127 then (b.toNat : Int) else (b.toNat : Int) - 256

/-- R78, R79: the sign extension "by the same >32767 rule", which a 12-bit value never meets (90_conflicts.md C2). -/
def extend16 (v : Nat) : Int := if v ≤ 32767 then (v : Int) else (v : Int) - 65536

/-- R78: `h4(b3, b4)`: `b3 × 16` plus the low nibble of `b4`. -/
def h4 (b3 b4 : Byte) : Int := extend16 (16 * b3.toNat + (b4 &&& 0xF#8).toNat)

/-- R79: `h5(b4, b5)`: the high nibble of `b4` plus `b5 × 16`. -/
def h5 (b4 b5 : Byte) : Int := extend16 ((b4 >>> 4).toNat + 16 * b5.toNat)

/-- R80: `adc20(msb, lsb, xlsb)`; parameter `XLSB_NIBBLE`: the high nibble of the XLSB byte (log entry 12). -/
def adc20 (msb lsb xlsb : Byte) : Nat := 4096 * msb.toNat + 16 * lsb.toNat + (xlsb >>> 4).toNat

/-- R81: `adc16(msb, lsb)`. -/
def adc16 (msb lsb : Byte) : Nat := 256 * msb.toNat + lsb.toNat

/-- The bits 7:0 of a written value (R162). -/
def lowByte (value : Nat) : Byte := BitVec.ofNat 8 value

/-- The coefficient registers in the order of their port addresses 0x50 to 0x61 (R51). -/
def Coef.inOrder : List Coef :=
  [.t1, .t2, .t3, .p1, .p2, .p3, .p4, .p5, .p6, .p7, .p8, .p9, .h1, .h2, .h3, .h4, .h5, .h6]

/-- The place of a coefficient register in that order. -/
def Coef.place : Coef → Nat
  | .t1 => 0 | .t2 => 1 | .t3 => 2
  | .p1 => 3 | .p2 => 4 | .p3 => 5 | .p4 => 6 | .p5 => 7 | .p6 => 8 | .p7 => 9 | .p8 => 10 | .p9 => 11
  | .h1 => 12 | .h2 => 13 | .h3 => 14 | .h4 => 15 | .h5 => 16 | .h6 => 17

/-- Parameter `PORTMAP` (R51): the register a port address names, if any. -/
def portMap (addr : BitVec 8) : Option Reg :=
  let n := addr.toNat
  if h : n < 26 then some (.a ⟨n, h⟩)
  else if h : 0x20 ≤ n ∧ n - 0x20 < 7 then some (.b ⟨n - 0x20, h.2⟩)
  else if h : 0x30 ≤ n ∧ n - 0x30 < 8 then some (.d ⟨n - 0x30, h.2⟩)
  else if n = 0x40 then some .cmd
  else if n = 0x41 then some .status
  else if 0x50 ≤ n ∧ n ≤ 0x61 then Coef.inOrder[n - 0x50]?.map Reg.coef
  else if n = 0x68 then some .adcP
  else if n = 0x69 then some .adcT
  else if n = 0x6A then some .adcH
  else if n = 0x70 then some .tFine
  else if n = 0x71 then some .tempC
  else if n = 0x72 then some .tempF
  else if n = 0x73 then some .pressPa
  else if n = 0x74 then some .humPct
  else none

/-- The port address of a register (R51). -/
def Reg.addr : Reg → BitVec 8
  | .a k => BitVec.ofNat 8 k.val
  | .b k => BitVec.ofNat 8 (0x20 + k.val)
  | .d k => BitVec.ofNat 8 (0x30 + k.val)
  | .cmd => 0x40#8
  | .status => 0x41#8
  | .coef c => BitVec.ofNat 8 (0x50 + c.place)
  | .adcP => 0x68#8
  | .adcT => 0x69#8
  | .adcH => 0x6A#8
  | .tFine => 0x70#8
  | .tempC => 0x71#8
  | .tempF => 0x72#8
  | .pressPa => 0x73#8
  | .humPct => 0x74#8

/-- A coefficient register's contents in its own type (10_state.md R21). -/
def CoefFile.value (k : CoefFile) : Coef → PortValue
  | .t1 => .u16 k.t1 | .t2 => .s16 k.t2 | .t3 => .s16 k.t3
  | .p1 => .u16 k.p1 | .p2 => .s16 k.p2 | .p3 => .s16 k.p3
  | .p4 => .s16 k.p4 | .p5 => .s16 k.p5 | .p6 => .s16 k.p6
  | .p7 => .s16 k.p7 | .p8 => .s16 k.p8 | .p9 => .s16 k.p9
  | .h1 => .u8 k.h1 | .h2 => .s16 k.h2 | .h3 => .u8 k.h3
  | .h4 => .s16 k.h4 | .h5 => .s16 k.h5 | .h6 => .s8 k.h6

/-- The integer an integer port value stands for: a signed register's signed value (43_control.md R163). A
floating-point value stands for none. -/
def integerOf : PortValue → Option Int
  | .u8 v => some v.toNat
  | .s8 v => some v.toInt
  | .u16 v => some v.toNat
  | .s16 v => some v.toInt
  | .u20 v => some v.toNat
  | .s32 v => some v.toInt
  | .fp _ => none

/-- The free value a draw gives a read of a register that holds no value, in the register's type (93_implementation_defined.md
U1, log entry 6); for CMD, which has no readable value (10_state.md R29), of any type (U3, log entry 7). -/
def freeValue (n : Nat) : Reg → PortValue
  | .a _ | .b _ | .d _ | .status => .u8 ((Config.freeBits n).setWidth 8)
  | .cmd => Config.freeRead n
  | .coef .t1 | .coef .p1 | .adcH => .u16 ((Config.freeBits n).setWidth 16)
  | .coef .h1 | .coef .h3 => .u8 ((Config.freeBits n).setWidth 8)
  | .coef .h6 => .s8 ((Config.freeBits n).setWidth 8)
  | .coef .t2 | .coef .t3 | .coef .p2 | .coef .p3 | .coef .p4 | .coef .p5 | .coef .p6 | .coef .p7 | .coef .p8
  | .coef .p9 | .coef .h2 | .coef .h4 | .coef .h5 => .s16 ((Config.freeBits n).setWidth 16)
  | .adcP | .adcT => .u20 ((Config.freeBits n).setWidth 20)
  | .tFine => .s32 ((Config.freeBits n).setWidth 32)
  | .tempC | .tempF | .pressPa | .humPct => .fp (Config.freeBits n)

end Sys2Proof.Machine
end

