-- ==== Sys2Proof/Machine/Flags.lean ====
section
/-! DEFINITION. The flags and the result code: their codes, STATUS, the valid condition of every register, and the
completeness tests of the windows (10_state.md R28, R30, R31, R35). -/

namespace Sys2Proof.Machine

/-- The code of a result (10_state.md R31). -/
def ErrCode.code : ErrCode → BitVec 3
  | .ok => 0#3
  | .illCmd => 1#3
  | .short => 2#3
  | .locked => 3#3
  | .noCal => 4#3
  | .noRaw => 5#3
  | .div0 => 6#3

/-- STATUS as read: `{ERR[2:0], HV, PV, TV, RAWV, CALV}` (10_state.md R30, 43_control.md R163). -/
def Ccu.status (c : Ccu) : Byte :=
  c.err ++ BitVec.ofBool c.hv ++ BitVec.ofBool c.pv ++ BitVec.ofBool c.tv ++ BitVec.ofBool c.rawv ++ BitVec.ofBool c.calv

/-- A value that is held under a condition. -/
def heldIf (valid : Bool) (v : PortValue) : Option PortValue := if valid then some v else none

/-- The value a register holds, in the register's own type; none where it holds no value (10_state.md R35). STATUS
always holds one; CMD stores nothing and has no readable value (R29). -/
def Ccu.value (c : Ccu) : Reg → Option PortValue
  | .a k => heldIf c.win.av[k] (.u8 c.win.a[k])
  | .b k => heldIf c.win.bv[k] (.u8 c.win.b[k])
  | .d k => heldIf c.win.dv[k] (.u8 c.win.d[k])
  | .cmd => none
  | .status => some (.u8 c.status)
  | .coef r => heldIf c.calv (c.coef.value r)
  | .adcP => heldIf c.rawv (.u20 c.adc.p)
  | .adcT => heldIf c.rawv (.u20 c.adc.t)
  | .adcH => heldIf c.rawv (.u16 c.adc.h)
  | .tFine => heldIf c.tv (.s32 c.tFine)
  | .tempC => heldIf c.tv (.fp c.tempC)
  | .tempF => heldIf c.tv (.fp c.tempF)
  | .pressPa => heldIf c.pv (.fp c.pressPa)
  | .humPct => heldIf c.hv (.fp c.humPct)

/-- `valid(R)`: the register holds a value (10_state.md R35). -/
def Ccu.holds (c : Ccu) (r : Reg) : Bool := (c.value r).isSome

/-- LDCAL's test of the 32 valid bits it needs: AV[0..23], AV[25] and BV[0..6] (40_calibration_decode.md R100, R107).
AV[24] is not among them (R108). -/
def Windows.calibrationComplete (w : Windows) : Bool :=
  decide (∀ k : Fin 26, k ≠ 24 → w.av[k] = true) && decide (∀ k : Fin 7, w.bv[k] = true)

/-- LDRAW's test of DV[0..7] (41_raw_unpack.md R120, R121). -/
def Windows.dataComplete (w : Windows) : Bool := decide (∀ k : Fin 8, w.dv[k] = true)

end Sys2Proof.Machine
end

