-- ==== Sys2Proof/Machine/Ops.lean ====
section
/-! DEFINITION. The named operations on the CCU and on the host's side of its port: raising an error (the CCU's whole
exception mechanism), clearing a session, writing a window byte, and a host read. -/

namespace Sys2Proof.Machine

/-- End a command with a result code: ERR <- the code (60_exceptions.md R170, R174). -/
def Ccu.setErr (c : Ccu) (e : ErrCode) : Ccu := { c with err := e.code }

/-- RAISE AN ERROR: the one shared operation. ERR <- the code of the error, and nothing else in the whole state changes;
no handler, no saved state, no mode (60_exceptions.md R174, 00_scope.md R12). There is no return from it, because
nothing was entered (R175). -/
def Ccu.raise (c : Ccu) (e : ErrCode) : Ccu := c.setErr e

/-- Clear every valid bit of the three windows. The bytes stay stored and hold no value (log entry 5). -/
def Windows.clear (w : Windows) : Windows :=
  { w with av := Vector.replicate 26 false, bv := Vector.replicate 7 false, dv := Vector.replicate 8 false }

/-- End the session: the effect of CLR and of the reset event, which is the same (43_control.md R160,
70_reset_and_hazards.md R190). What the data registers store stays and holds no value (log entry 5). -/
def Ccu.clear (c : Ccu) : Ccu :=
  { c with calv := false, rawv := false, tv := false, pv := false, hv := false, win := c.win.clear,
           err := ErrCode.ok.code }

/-- Consume window D: DV[0..7] <- 0 (41_raw_unpack.md R122). The bytes stay stored. -/
def Windows.consumeData (w : Windows) : Windows := { w with dv := Vector.replicate 8 false }

/-- Store a byte in A[k] and set AV[k] (43_control.md R162). -/
def Windows.writeA (w : Windows) (k : Fin 26) (v : Byte) : Windows :=
  { w with a := w.a.set k.val v k.isLt, av := w.av.set k.val true k.isLt }

/-- Store a byte in B[k] and set BV[k] (43_control.md R162). -/
def Windows.writeB (w : Windows) (k : Fin 7) (v : Byte) : Windows :=
  { w with b := w.b.set k.val v k.isLt, bv := w.bv.set k.val true k.isLt }

/-- Store a byte in D[k] and set DV[k] (43_control.md R162). -/
def Windows.writeD (w : Windows) (k : Fin 8) (v : Byte) : Windows :=
  { w with d := w.d.set k.val v k.isLt, dv := w.dv.set k.val true k.isLt }

/-- A write to a register that is not CMD: a window byte is stored and made valid; every other register is read-only,
and nothing changes (43_control.md R162, 20_memory.md R55). -/
def Ccu.writeReg (c : Ccu) (v : Byte) : Reg → Ccu
  | .a k => { c with win := c.win.writeA k v }
  | .b k => { c with win := c.win.writeB k v }
  | .d k => { c with win := c.win.writeD k v }
  | .cmd | .status | .coef _ | .adcP | .adcT | .adcH | .tFine | .tempC | .tempF | .pressPa | .humPct => c

/-- Load all 18 coefficients at once and set CALV (40_calibration_decode.md R100). -/
def Ccu.loadCoefficients (c : Ccu) (k : CoefFile) : Ccu := { c with coef := k, calv := true, err := ErrCode.ok.code }

/-- Load a raw reading: all three ADC registers at once, RAWV <- 1, the outputs no longer valid, window D consumed
(41_raw_unpack.md R120, R122, R123). -/
def Ccu.loadAdc (c : Ccu) (r : AdcFile) : Ccu :=
  { c with adc := r, rawv := true, tv := false, pv := false, hv := false, win := c.win.consumeData,
           err := ErrCode.ok.code }

/-- Write the outputs of a COMP in one transition (42_compensation.md R143). Without a pressure, PV <- 0, nothing is
written to PRESS_PA, and the command ends with E_DIV0 (R139, parameter `DIV0`). -/
def Ccu.writeOutputs (c : Ccu) (o : Outputs) : Ccu :=
  { c with tFine := o.tFine, tempC := o.tempC, tempF := o.tempF, tv := true,
           pressPa := o.press.getD c.pressPa, pv := o.press.isSome, humPct := o.humPct, hv := true,
           err := (if o.press.isSome then ErrCode.ok else ErrCode.div0).code }

/-- The state with another CCU part. -/
def State.withCcu (s : State) (c : Ccu) : State := { s with ccu := c }

/-- The state with another list of accesses to come. -/
def State.withPending (s : State) (q : List Access) : State := { s with host := { s.host with pending := q } }

/-- Give the host the value its read returns (43_control.md R163). The CCU does not change. -/
def State.reply (s : State) (v : PortValue) : State := { s with host := { s.host with replies := v :: s.host.replies } }

/-- Count one draw of a free value (log entry 8). -/
def State.draw (s : State) : State := { s with host := { s.host with draws := s.host.draws + 1 } }

/-- A host read (43_control.md R163): the register's value if the address names a register that holds one; else an
unconstrained value, of the register's type where there is a register with one (93_implementation_defined.md U1, U3). -/
def memRead (addr : BitVec 8) (s : State) : State :=
  match portMap addr with
  | some r =>
    match s.ccu.value r with
    | some v => s.reply v
    | none => (s.reply (freeValue s.host.draws r)).draw
  | none => (s.reply (Config.freeRead s.host.draws)).draw

/-- The reset event: one atomic transition, allowed in every state, with the effect of CLR (70_reset_and_hazards.md
R190). It acts on the CCU, not on the host. -/
def resetEvent (s : State) : State := s.withCcu s.ccu.clear

end Sys2Proof.Machine
end

