-- ==== Sys2Proof/Machine/Calibration.lean ====
section
/-! DEFINITION. The calibration decode command LDCAL (40_calibration_decode.md). -/

namespace Sys2Proof.Machine

/-- The 18 coefficients of windows A and B (40_calibration_decode.md R100 to R106; the byte of each is in 30_encoding.md
R73 and R74). A[24] is decoded into nothing (R108). -/
def decodeCoefficients (w : Windows) : CoefFile where
  t1 := BitVec.ofNat 16 (u16le w.a[0] w.a[1])
  t2 := BitVec.ofInt 16 (s16le w.a[2] w.a[3])
  t3 := BitVec.ofInt 16 (s16le w.a[4] w.a[5])
  p1 := BitVec.ofNat 16 (u16le w.a[6] w.a[7])
  p2 := BitVec.ofInt 16 (s16le w.a[8] w.a[9])
  p3 := BitVec.ofInt 16 (s16le w.a[10] w.a[11])
  p4 := BitVec.ofInt 16 (s16le w.a[12] w.a[13])
  p5 := BitVec.ofInt 16 (s16le w.a[14] w.a[15])
  p6 := BitVec.ofInt 16 (s16le w.a[16] w.a[17])
  p7 := BitVec.ofInt 16 (s16le w.a[18] w.a[19])
  p8 := BitVec.ofInt 16 (s16le w.a[20] w.a[21])
  p9 := BitVec.ofInt 16 (s16le w.a[22] w.a[23])
  h1 := BitVec.ofNat 8 (u8 w.a[25])
  h2 := BitVec.ofInt 16 (s16le w.b[0] w.b[1])
  h3 := BitVec.ofNat 8 (u8 w.b[2])
  h4 := BitVec.ofInt 16 (h4 w.b[3] w.b[4])
  h5 := BitVec.ofInt 16 (h5 w.b[4] w.b[5])
  h6 := BitVec.ofInt 8 (s8 w.b[6])

/-- LDCAL on the CCU (40_calibration_decode.md R100): E_LOCKED is tested first, then E_SHORT (60_exceptions.md R173). -/
def Ccu.loadCalibration (c : Ccu) : Ccu :=
  if c.calv then c.raise .locked
  else if !c.win.calibrationComplete then c.raise .short
  else c.loadCoefficients (decodeCoefficients c.win)

/-- LDCAL (40_calibration_decode.md R100). -/
def execLdcal (s : State) : Host.Outcome State Fault Refusal := .next (s.withCcu s.ccu.loadCalibration)

end Sys2Proof.Machine
end

