-- ==== Sys2Proof/Machine/Float.lean ====
section
/-! DEFINITION. IEEE 754 binary64, round to nearest, ties to even: the decided value of parameter `FP`
(42_compensation.md R131 to R133, 92_eei_decisions.md D5).

A finite value is held as its 64 bits and read as an exact integer number of units of 2^-1074, the format's smallest
positive value. Each operation computes its exact real result as a fraction of such units and rounds it once. What the
operations do with infinities and NaN is IEEE 754's and not in the spec's rules (log entry 9); R145 says that none
ever arises.

In a sum or product the literal stands first: the kernel then never unfolds a large one unit at a time where the other
operand is not known. -/

namespace Sys2Proof.Binary64

/-- 2^1074: how many units make 1. -/
def scale : Nat := 2 ^ 1074

/-- The sign bit. -/
def sign (a : F64) : Bool := a.msb

/-- The 11 exponent bits. -/
def expField (a : F64) : Nat := a.toNat / 2 ^ 52 % 2 ^ 11

/-- The 52 fraction bits. -/
def fracField (a : F64) : Nat := a.toNat % 2 ^ 52

/-- Neither an infinity nor a NaN. -/
def isFinite (a : F64) : Bool := expField a != 2047

/-- A NaN. -/
def isNan (a : F64) : Bool := expField a == 2047 && fracField a != 0

/-- An infinity of either sign. -/
def isInf (a : F64) : Bool := expField a == 2047 && fracField a == 0

/-- The magnitude of a finite value in units: a subnormal value's fraction, or a normal value's significand shifted by
its exponent. (An infinity gets a number above every finite magnitude, which is what the comparisons want.) -/
def mag (a : F64) : Nat :=
  if expField a = 0 then fracField a else (2 ^ 52 + fracField a) * 2 ^ (expField a - 1)

/-- A finite value in units. Both zeros are 0. -/
def units (a : F64) : Int := if sign a then -(mag a : Int) else (mag a : Int)

/-- The exponent and fraction bits of an infinity. -/
def infBits : Nat := 2047 * 2 ^ 52

/-- The value with this sign and these 63 exponent and fraction bits. -/
def pack (neg : Bool) (bits : Nat) : F64 := BitVec.ofNat 64 ((if neg then 2 ^ 63 else 0) + bits)

/-- The exponent and fraction bits of the value nearest to `n / d` units, ties to the even one, were the exponent range
unbounded above: `shift` is how many low bits do not fit a 53-bit significand, and the significand's leading bit
carries into the exponent field by addition. -/
def roundUnits (n d : Nat) : Nat :=
  let shift := Nat.log2 (n / d) - 52
  let step := d * 2 ^ shift
  let q := n / step
  let r := n % step
  let q' := if step < 2 * r ∨ (2 * r = step ∧ q % 2 = 1) then q + 1 else q
  2 ^ 52 * shift + q'

/-- The value nearest to `n / d` units with the given sign; an infinity from the format's overflow threshold up. -/
def round (neg : Bool) (n d : Nat) : F64 := pack neg (min (roundUnits n d) infBits)

/-- A quiet NaN whose other bits are free (log entry 10). -/
def nan (a b : F64) : F64 := Config.freeNan a b ||| 0x7FF8000000000000#64

/-- The same value with the other sign. -/
def negate (a : F64) : F64 := a ^^^ 0x8000000000000000#64

/-- The rounded sum. An exact sum of zero is +0, unless both operands are negative (zeros). -/
def fadd (a b : F64) : F64 :=
  if isNan a || isNan b then nan a b
  else if isInf a then (if isInf b && sign a != sign b then nan a b else a)
  else if isInf b then b
  else
    let z := units a + units b
    if z = 0 then pack (sign a && sign b) 0 else round (z < 0) z.natAbs 1

/-- The rounded difference. -/
def fsub (a b : F64) : F64 := fadd a (negate b)

/-- The rounded product; its sign is the exclusive-or of the operands' signs. -/
def fmul (a b : F64) : F64 :=
  if isNan a || isNan b then nan a b
  else if (isInf a && mag b == 0) || (isInf b && mag a == 0) then nan a b
  else if isInf a || isInf b then pack (sign a != sign b) infBits
  else round (sign a != sign b) (mag a * mag b) scale

/-- The rounded quotient; its sign is the exclusive-or of the operands' signs. -/
def fdiv (a b : F64) : F64 :=
  if isNan a || isNan b then nan a b
  else if (isInf a && isInf b) || (mag a == 0 && mag b == 0) then nan a b
  else if isInf a || mag b == 0 then pack (sign a != sign b) infBits
  else if isInf b then pack (sign a != sign b) 0
  else round (sign a != sign b) (scale * mag a) (mag b)

/-- The value nearest to the fraction `num / den` (42_compensation.md R133). -/
def flit (num : Int) (den : Nat) : F64 := round (num < 0) (scale * num.natAbs) den

/-- The value nearest to an integer; exact below 2^53 (42_compensation.md R132). -/
def fofint (i : Int) : F64 := flit i 1

/-- The greatest integer not above a finite value (42_compensation.md R132); free for any other (log entry 11). -/
def ffloor (a : F64) : Int := if isFinite a then Int.fdiv (units a) (scale : Int) else Config.freeFloor a

/-- Numerical equality: -0 equals +0, and a NaN equals nothing. -/
def feq (a b : F64) : Bool := !isNan a && !isNan b && units a == units b

/-- Numerical less-than. -/
def flt (a b : F64) : Bool := !isNan a && !isNan b && decide (units a < units b)

/-- Numerical greater-than. -/
def fgt (a b : F64) : Bool := flt b a

/-- The arithmetic `FP` as decided (92_eei_decisions.md D5). Irreducible, so that no proof about COMP computes in it by
accident; the kernel computes in it as before, and Laws/Float.lean names each operation. -/
@[irreducible] def arith : Config.Arith := { fadd, fsub, fmul, fdiv, fofint, flit, ffloor, feq, flt, fgt }

end Sys2Proof.Binary64
end

