-- ==== Sys2Proof/Machine/Compensation.lean ====
section
/-! DEFINITION. The compensation command COMP and its three stages (42_compensation.md). Every stage takes the
arithmetic `FP` as an argument (92_eei_decisions.md D5) and is written as the rule's sequence of single operations. -/

namespace Sys2Proof.Machine

/-- An integer literal of the stages (42_compensation.md R133). -/
def lit (fp : Config.Arith) (n : Int) : F64 := fp.flit n 1

/-- Stage T (42_compensation.md R134, R135): the sum s = var1 + var2, and t_fine, its floor. -/
def stageT (fp : Config.Arith) (adcT t1 t2 t3 : Int) : F64 × Int :=
  let a := fp.fdiv (fp.fofint adcT) (lit fp 16384)
  let b := fp.fdiv (fp.fofint t1) (lit fp 1024)
  let c := fp.fsub a b
  let var1 := fp.fmul c (fp.fofint t2)
  let d1 := fp.fdiv (fp.fofint adcT) (lit fp 131072)
  let d2 := fp.fdiv (fp.fofint t1) (lit fp 8192)
  let d := fp.fsub d1 d2
  let dd := fp.fmul d d
  let var2 := fp.fmul dd (fp.fofint t3)
  let s := fp.fadd var1 var2
  (s, fp.ffloor s)

/-- TEMP_C of the unfloored sum (42_compensation.md R136). -/
def tempCOf (fp : Config.Arith) (s : F64) : F64 := fp.fdiv s (lit fp 5120)

/-- TEMP_F of the rounded TEMP_C: the product with 1.8 first, then the sum (42_compensation.md R136). -/
def tempFOf (fp : Config.Arith) (tempC : F64) : F64 := fp.fadd (fp.fmul tempC (fp.flit 18 10)) (lit fp 32)

/-- The common first value of stage P, t_fine / 2 − 64000 (42_compensation.md R138). -/
def pressQ1 (fp : Config.Arith) (tFine : Int) : F64 :=
  fp.fsub (fp.fdiv (fp.fofint tFine) (lit fp 2)) (lit fp 64000)

/-- The pressure denominator (42_compensation.md R138, parameter `PRESS_POLY`, log entry 13). -/
def pressDen (fp : Config.Arith) (tFine p1 p2 p3 : Int) : F64 :=
  let q1 := pressQ1 fp tFine
  let q11 := fp.fmul (fp.fofint p3) q1
  let q12 := fp.fmul q11 q1
  let q13 := fp.fdiv q12 (lit fp 524288)
  let q14 := fp.fmul (fp.fofint p2) q1
  let q15 := fp.fadd q13 q14
  let q16 := fp.fdiv q15 (lit fp 524288)
  let q17 := fp.fdiv q16 (lit fp 32768)
  let q18 := fp.fadd (lit fp 1) q17
  fp.fmul q18 (fp.fofint p1)

/-- The pressure for a denominator that is not zero (42_compensation.md R138, parameter `PRESS_POLY`, log entry 13). -/
def pressPoly (fp : Config.Arith) (tFine adcP : Int) (den : F64) (p4 p5 p6 p7 p8 p9 : Int) : F64 :=
  let q1 := pressQ1 fp tFine
  let q2 := fp.fmul q1 q1
  let q3 := fp.fmul q2 (fp.fofint p6)
  let q4 := fp.fdiv q3 (lit fp 32768)
  let q5 := fp.fmul q1 (fp.fofint p5)
  let q6 := fp.fmul q5 (lit fp 2)
  let q7 := fp.fadd q4 q6
  let q8 := fp.fdiv q7 (lit fp 4)
  let q9 := fp.fmul (fp.fofint p4) (lit fp 65536)
  let q10 := fp.fadd q8 q9
  let q19 := fp.fsub (lit fp 1048576) (fp.fofint adcP)
  let q20 := fp.fdiv q10 (lit fp 4096)
  let q21 := fp.fsub q19 q20
  let q22 := fp.fmul q21 (lit fp 6250)
  let q23 := fp.fdiv q22 den
  let q24 := fp.fmul (fp.fofint p9) q23
  let q25 := fp.fmul q24 q23
  let q26 := fp.fdiv q25 (lit fp 2147483648)
  let q27 := fp.fmul q23 (fp.fofint p8)
  let q28 := fp.fdiv q27 (lit fp 32768)
  let q29 := fp.fadd q26 q28
  let q30 := fp.fadd q29 (fp.fofint p7)
  let q31 := fp.fdiv q30 (lit fp 16)
  fp.fadd q23 q31

/-- The humidity before the clamp (42_compensation.md R141, parameter `HUM_POLY`, log entry 14). -/
def humPoly (fp : Config.Arith) (tFine adcH h1 h2 h3 h4 h5 h6 : Int) : F64 :=
  let g1 := fp.fsub (fp.fofint tFine) (lit fp 76800)
  let g2 := fp.fmul (fp.fofint h4) (lit fp 64)
  let g3 := fp.fdiv (fp.fofint h5) (lit fp 16384)
  let g4 := fp.fmul g3 g1
  let g5 := fp.fadd g2 g4
  let g6 := fp.fsub (fp.fofint adcH) g5
  let g7 := fp.fdiv (fp.fofint h2) (lit fp 65536)
  let g8 := fp.fdiv (fp.fofint h6) (lit fp 67108864)
  let g9 := fp.fmul g8 g1
  let g10 := fp.fdiv (fp.fofint h3) (lit fp 67108864)
  let g11 := fp.fmul g10 g1
  let g12 := fp.fadd (lit fp 1) g11
  let g13 := fp.fmul g9 g12
  let g14 := fp.fadd (lit fp 1) g13
  let g15 := fp.fmul g7 g14
  let g16 := fp.fmul g6 g15
  let g17 := fp.fmul (fp.fofint h1) g16
  let g18 := fp.fdiv g17 (lit fp 524288)
  let g19 := fp.fsub (lit fp 1) g18
  fp.fmul g16 g19

/-- The clamp to the closed interval [0, 100] (42_compensation.md R142). -/
def clamp (fp : Config.Arith) (h : F64) : F64 :=
  if fp.fgt h (lit fp 100) then lit fp 100
  else if fp.flt h (lit fp 0) then lit fp 0
  else h

/-- Stage T on the registers (42_compensation.md R134): it reads ADC_T, T1, T2, T3. -/
def stageTOf (fp : Config.Arith) (k : CoefFile) (r : AdcFile) : F64 × Int :=
  stageT fp r.t.toNat k.t1.toNat k.t2.toInt k.t3.toInt

/-- TEMP_C on the registers. -/
def temperatureC (fp : Config.Arith) (k : CoefFile) (r : AdcFile) : F64 := tempCOf fp (stageTOf fp k r).1

/-- TEMP_F on the registers. -/
def temperatureF (fp : Config.Arith) (k : CoefFile) (r : AdcFile) : F64 := tempFOf fp (temperatureC fp k r)

/-- The pressure denominator on the registers, of the t_fine that stage T of the same COMP computes (R130, C4). -/
def denominator (fp : Config.Arith) (k : CoefFile) (r : AdcFile) : F64 :=
  pressDen fp (stageTOf fp k r).2 k.p1.toNat k.p2.toInt k.p3.toInt

/-- The pressure on the registers, where the denominator is not zero. -/
def pressure (fp : Config.Arith) (k : CoefFile) (r : AdcFile) : F64 :=
  pressPoly fp (stageTOf fp k r).2 r.p.toNat (denominator fp k r)
    k.p4.toInt k.p5.toInt k.p6.toInt k.p7.toInt k.p8.toInt k.p9.toInt

/-- The humidity on the registers, after the clamp. -/
def humidity (fp : Config.Arith) (k : CoefFile) (r : AdcFile) : F64 :=
  clamp fp (humPoly fp (stageTOf fp k r).2 r.h.toNat
    k.h1.toNat k.h2.toInt k.h3.toNat k.h4.toInt k.h5.toInt k.h6.toInt)

/-- The guard of stage P: the denominator is +0 or −0 (42_compensation.md R139). -/
def denominatorIsZero (fp : Config.Arith) (k : CoefFile) (r : AdcFile) : Bool := fp.feq (denominator fp k r) (lit fp 0)

/-- What COMP computes from the coefficients and the ADC registers alone (42_compensation.md R130, R144): no pressure
where the denominator is zero (R139). -/
def compensation (fp : Config.Arith) (k : CoefFile) (r : AdcFile) : Outputs where
  tFine := BitVec.ofInt 32 (stageTOf fp k r).2
  tempC := temperatureC fp k r
  tempF := temperatureF fp k r
  press := if denominatorIsZero fp k r then none else some (pressure fp k r)
  humPct := humidity fp k r

/-- COMP on the CCU (42_compensation.md R130). E_NOCAL is tested first, then E_NORAW (R146); a zero denominator gives
E_DIV0 after stages T and H (R139). -/
def Ccu.compensate (fp : Config.Arith) (c : Ccu) : Ccu :=
  if !c.calv then c.raise .noCal
  else if !c.rawv then c.raise .noRaw
  else c.writeOutputs (compensation fp c.coef c.adc)

/-- COMP (42_compensation.md R130), with the decided arithmetic. -/
def execComp (s : State) : Host.Outcome State Fault Refusal := .next (s.withCcu (s.ccu.compensate Binary64.arith))

end Sys2Proof.Machine
end

