-- ==== Sys2Proof/Machine/Control.lean ====
section
/-! DEFINITION. The command CLR and the illegal command (43_control.md). -/

namespace Sys2Proof.Machine

/-- CLR (43_control.md R160): always succeeds, in every state. -/
def execClr (s : State) : Host.Outcome State Fault Refusal := .next (s.withCcu s.ccu.clear)

/-- The illegal command (43_control.md R161): a CMD write of a reserved value. ERR <- E_ILLCMD; the value is not
recorded anywhere. It is no instruction of the table, so no arm of `exec` calls it. -/
def execIllegal (_v : Byte) (s : State) : Host.Outcome State Fault Refusal := .next (s.withCcu (s.ccu.raise .illCmd))

end Sys2Proof.Machine
end

