-- ==== Sys2Proof/Machine/RawReading.lean ====
section
/-! DEFINITION. The raw-reading unpack command LDRAW (41_raw_unpack.md). -/

namespace Sys2Proof.Machine

/-- The three ADC values of window D (41_raw_unpack.md R120, 30_encoding.md R75). -/
def unpackReading (w : Windows) : AdcFile where
  p := BitVec.ofNat 20 (adc20 w.d[0] w.d[1] w.d[2])
  t := BitVec.ofNat 20 (adc20 w.d[3] w.d[4] w.d[5])
  h := BitVec.ofNat 16 (adc16 w.d[6] w.d[7])

/-- LDRAW on the CCU (41_raw_unpack.md R120 to R123). -/
def Ccu.loadReading (c : Ccu) : Ccu :=
  if !c.win.dataComplete then c.raise .short
  else c.loadAdc (unpackReading c.win)

/-- LDRAW (41_raw_unpack.md R120). -/
def execLdraw (s : State) : Host.Outcome State Fault Refusal := .next (s.withCcu s.ccu.loadReading)

end Sys2Proof.Machine
end

