-- ==== Sys2Proof/Machine/Dispatch.lean ====
section
/-! DEFINITION. One arm per command: the meaning of each (30_encoding.md R71). -/

namespace Sys2Proof.Machine

def exec (i : Instr) (s : State) : Host.Outcome State Fault Refusal :=
  match i with
  | .ldcal => Sys2Proof.Machine.execLdcal s
  | .ldraw => Sys2Proof.Machine.execLdraw s
  | .comp => Sys2Proof.Machine.execComp s
  | .clr => Sys2Proof.Machine.execClr s

end Sys2Proof.Machine
end

