-- ==== Sys2Proof/Machine/Access.lean ====
section
/-! DEFINITION. The host's accesses: a port write with the command it may start, a port read, the reset event
(43_control.md R162, R163, 70_reset_and_hazards.md R190). -/

namespace Sys2Proof.Machine

/-- Execute the command with opcode v (10_state.md R29): a command of the table, or the illegal command (30_encoding.md
R72). -/
def command (v : Byte) (s : State) : Host.Outcome State Fault Refusal :=
  match decode v with
  | .ok i => exec i s
  | .error (.reserved w) => execIllegal w s

/-- A host write (43_control.md R162). -/
def memWrite (addr : BitVec 8) (value : Nat) (s : State) : Host.Outcome State Fault Refusal :=
  match portMap addr with
  | some .cmd => command (lowByte value) s
  | some r => .next (s.withCcu (s.ccu.writeReg (lowByte value) r))
  | none => .next s

/-- One access of the host: one atomic transition (20_memory.md R58). -/
def perform (x : Access) (s : State) : Host.Outcome State Fault Refusal :=
  match x with
  | .write addr value => memWrite addr value s
  | .read addr => .next (memRead addr s)
  | .reset => .next (resetEvent s)

/-- The transition of the machine: the oldest access that is still to come is taken and performed (20_memory.md R62).
With none to come the CCU waits, and nothing changes (70_reset_and_hazards.md R191, log entry 1). -/
def transition (s : State) : Host.Outcome State Fault Refusal :=
  match s.host.pending with
  | [] => .next s
  | x :: rest => perform x (s.withPending rest)

/-- The state in which the host's very next access writes the opcode `w` (of `nbits` bits, 0 above them) to CMD. -/
def State.withCommand (s : State) (nbits w : Nat) : State :=
  s.withPending (.write (Reg.addr .cmd) (w % 2 ^ nbits) :: s.host.pending)

end Sys2Proof.Machine
end

