-- ==== Sys2Proof/Machine/Step.lean ====
section
/-! DEFINITION. The step function, and the placing of one instruction where the next step takes it. -/

namespace Sys2Proof.Machine

/-- One step: the host's oldest access still to come is performed, with the command it may start (00_scope.md R5). -/
def step (s : State) : Host.Outcome State Fault Refusal := transition s

/-- The CCU fetches nothing (10_state.md R32): its commands come from the host's writes to CMD. So the word is placed as
the host's next access, a write of it to CMD (log entry 1). -/
def State.withFetchWord (s : State) (nbits w : Nat) : State := s.withCommand nbits w

end Sys2Proof.Machine
end

