-- ==== Sys2Proof/Machine/Script.lean ====
section
/-! DEFINITION. The host script: its lines and pseudo-instructions, each with its expansion into accesses of the host
(30_encoding.md R83, R84). Notation only: the CCU has no assembler. -/

namespace Sys2Proof.Machine

/-- One line of the host script (30_encoding.md R83, R84). -/
inductive Line where
  /-- `WR addr, byte`. -/
  | wr (addr : BitVec 8) (byte : Byte)
  /-- `CMD LDCAL`, `CMD LDRAW`, `CMD COMP`, `CMD CLR`. -/
  | cmd (i : Instr)
  /-- `CMD #v`. -/
  | cmdRaw (v : Byte)
  /-- `RD addr`. -/
  | rd (addr : BitVec 8)
  /-- `RD NAME`. -/
  | rdName (r : Reg)
  /-- `RESET`. -/
  | reset
  /-- `FILLA b0 .. b25`; fewer bytes model a short burst. -/
  | fillA (bytes : List Byte)
  /-- `FILLB b0 .. b6`. -/
  | fillB (bytes : List Byte)
  /-- `FILLD b0 .. b7`. -/
  | fillD (bytes : List Byte)
  /-- `LOADCAL a0..a25 / b0..b6`. -/
  | loadCal (a b : List Byte)
  /-- `READRAW d0..d7`. -/
  | readRaw (d : List Byte)
  deriving DecidableEq, Repr

/-- Writes of bytes to ascending port addresses (30_encoding.md R84). -/
def writesFrom (start : Nat) : List Byte → List Access
  | [] => []
  | b :: bytes => .write (BitVec.ofNat 8 start) b.toNat :: writesFrom (start + 1) bytes

/-- The write to CMD that a value v stands for (30_encoding.md R83). -/
def commandWrite (v : Byte) : Access := .write (Reg.addr .cmd) v.toNat

/-- The accesses a script line stands for (30_encoding.md R83, R84). -/
def Line.expand : Line → List Access
  | .wr addr byte => [.write addr byte.toNat]
  | .cmd i => [commandWrite (encode i)]
  | .cmdRaw v => [commandWrite v]
  | .rd addr => [.read addr]
  | .rdName r => [.read r.addr]
  | .reset => [.reset]
  | .fillA bytes => writesFrom 0x00 bytes
  | .fillB bytes => writesFrom 0x20 bytes
  | .fillD bytes => writesFrom 0x30 bytes
  | .loadCal a b => writesFrom 0x00 a ++ writesFrom 0x20 b ++ [commandWrite (encode .ldcal)]
  | .readRaw d => writesFrom 0x30 d ++ [commandWrite (encode .ldraw)]

end Sys2Proof.Machine
end

