-- ==== Sys2Proof/WellFormed.lean ====
section
/-! DEFINITION. Well-formed commands and script lines. A command has no operand, so each of the four is well-formed
(30_encoding.md R70, log entry 19); the checks are on the lines of the host script (R83, R84, log entry 17). -/

namespace Sys2Proof

/-- A command has no field that could be out of range (30_encoding.md R70). -/
def Instr.wf : Instr → Bool
  | .ldcal => true
  | .ldraw => true
  | .comp => true
  | .clr => true

/-- A script line has no more bytes than its window takes; LOADCAL and READRAW give whole windows (30_encoding.md R84). -/
def Machine.Line.wf : Machine.Line → Bool
  | .wr _ _ => true
  | .cmd i => i.wf
  | .cmdRaw _ => true
  | .rd _ => true
  | .rdName _ => true
  | .reset => true
  | .fillA bytes => bytes.length ≤ 26
  | .fillB bytes => bytes.length ≤ 7
  | .fillD bytes => bytes.length ≤ 8
  | .loadCal a b => a.length == 26 && b.length == 7
  | .readRaw d => d.length == 8

end Sys2Proof
end

