-- ==== Sys2Proof/Safety.lean ====
section
/-! DEFINITION. The terms the statements use: what a cleared session is, the invariants of the CCU, when two states
cannot be told apart, what a rounded result is, and sequences of the host's accesses. -/

namespace Sys2Proof.Machine

/-- A cleared session (10_state.md R36): every flag and valid bit 0, ERR = OK, no register but STATUS holding a value,
and STATUS reading 0x00. -/
structure Ccu.Cleared (c : Ccu) : Prop where
  calv : c.calv = false
  rawv : c.rawv = false
  tv : c.tv = false
  pv : c.pv = false
  hv : c.hv = false
  err : c.err = 0#3
  av : ∀ k : Fin 26, c.win.av[k] = false
  bv : ∀ k : Fin 7, c.win.bv[k] = false
  dv : ∀ k : Fin 8, c.win.dv[k] = false
  holds : ∀ r : Reg, r ≠ .status → c.holds r = false
  status : c.status = 0x00#8

/-- How the flags hang together: stages T and H write together, PRESS_PA is never valid without them, they need both the
calibration and a reading, and ERR is never 7 (10_state.md R27, R31, 93_implementation_defined.md U6). -/
structure Ccu.FlagsCoherent (c : Ccu) : Prop where
  stages : c.tv = c.hv
  pressure : c.pv = true → c.tv = true
  calibrated : c.tv = true → c.calv = true
  measured : c.tv = true → c.rawv = true
  err : c.err ≠ 7#3

/-- The valid outputs are those of the current ADC registers and coefficients (10_state.md R27), and PRESS_PA is valid
beside them exactly if the denominator is not zero (42_compensation.md R143). -/
structure Ccu.OutputsCurrent (c : Ccu) : Prop where
  tFine : c.tv = true → c.tFine = BitVec.ofInt 32 (stageTOf Binary64.arith c.coef c.adc).2
  tempC : c.tv = true → c.tempC = temperatureC Binary64.arith c.coef c.adc
  tempF : c.tv = true → c.tempF = temperatureF Binary64.arith c.coef c.adc
  guard : c.tv = true → c.pv = !denominatorIsZero Binary64.arith c.coef c.adc
  pressPa : c.pv = true → c.pressPa = pressure Binary64.arith c.coef c.adc
  humPct : c.hv = true → c.humPct = humidity Binary64.arith c.coef c.adc

/-- H4 and H5 are in 0..4095 when they hold a value (10_state.md R21, 90_conflicts.md C2). -/
def Ccu.PackedInRange (c : Ccu) : Prop := c.calv = true → c.coef.h4.toNat ≤ 4095 ∧ c.coef.h5.toNat ≤ 4095

/-- The invariant of the CCU. -/
structure Ccu.Inv (c : Ccu) : Prop where
  flags : c.FlagsCoherent
  outputs : c.OutputsCurrent
  packed : c.PackedInRange

/-- Every output register that holds a value holds a finite number, T_FINE is within 22 bits and a sign, and HUM_PCT is
in the closed interval [0, 100] (10_state.md R26, 42_compensation.md R142, R145). -/
structure Ccu.OutputsBounded (c : Ccu) : Prop where
  tFine : c.tv = true → -4194304 ≤ c.tFine.toInt ∧ c.tFine.toInt ≤ 4194303
  tempC : c.tv = true → Binary64.isFinite c.tempC = true
  tempF : c.tv = true → Binary64.isFinite c.tempF = true
  pressPa : c.pv = true → Binary64.isFinite c.pressPa = true
  humFinite : c.hv = true → Binary64.isFinite c.humPct = true
  humRange : c.hv = true → 0 ≤ Binary64.units c.humPct ∧ Binary64.units c.humPct ≤ 100 * (Binary64.scale : Int)

/-- No port read can tell the two apart: every register holds the same value in both, or holds none in both. -/
def Ccu.SameHeld (c d : Ccu) : Prop := ∀ r : Reg, c.value r = d.value r

/-- The host cannot tell the two states apart: the same values held, and the same on the host's side. -/
structure State.Indistinguishable (s t : State) : Prop where
  ccu : s.ccu.SameHeld t.ccu
  host : s.host = t.host

/-- The host's accesses performed one after another (20_memory.md R62). -/
def performAll : List Access → State → Host.Outcome State Fault Refusal
  | [], s => .next s
  | x :: xs, s =>
    match perform x s with
    | .next t => performAll xs t
    | .fault r => .fault r
    | .refused r => .refused r

/-- The access is a write to CMD whose value's low byte is the opcode of i (43_control.md R162). -/
def Access.Issues (x : Access) (i : Instr) : Prop :=
  ∃ addr value, x = .write addr value ∧ portMap addr = some .cmd ∧ decode (lowByte value) = .ok i

/-- The access ends the session: the reset event, or CLR (70_reset_and_hazards.md R190). -/
def Access.EndsSession (x : Access) : Prop := x = .reset ∨ x.Issues .clr

/-- The access is a write to the register r (43_control.md R162). -/
def Access.WritesTo (x : Access) (r : Reg) : Prop := ∃ addr value, x = .write addr value ∧ portMap addr = some r

end Sys2Proof.Machine

namespace Sys2Proof.Binary64

/-- The format's greatest finite magnitude, in units. -/
def maxUnits : Nat := (2 ^ 53 - 1) * 2 ^ 2045

/-- `r` is the finite value nearest to the real number `num / den` (in units of 2^-1074), and on a tie the one whose last
significand bit is 0 (42_compensation.md R131). -/
structure NearestEven (num : Int) (den : Nat) (r : F64) : Prop where
  finite : isFinite r = true
  nearest : ∀ x : F64, isFinite x = true → (num - den * units r).natAbs ≤ (num - den * units x).natAbs
  even : ∀ x : F64, isFinite x = true → units x ≠ units r →
    (num - den * units r).natAbs = (num - den * units x).natAbs → r.toNat % 2 = 0

end Sys2Proof.Binary64
end

