-- ==== Sys2Proof/Certificates/Slice0/Obligations.lean ====
section
/-! DEFINITION. The statements for the provers, each from a numbered rule of spec/ or from sections it names. -/

open Sys2Proof Sys2Proof.Machine

/-! ### Reset, decoding, the step -/

/-- R36: what the state is at reset, and after the reset event and the command CLR from every state. -/
def Obligations.ResetAndClearHoldNothing : Prop :=
  State.reset.ccu.Cleared ∧
  ∀ s : State, (∃ t, exec .clr s = .next t ∧ t.ccu.Cleared) ∧ (resetEvent s).ccu.Cleared

/-- R190: the reset event is allowed in every state, is one transition, leaves the state of R36, and has exactly the effect
of CLR. -/
def Obligations.ResetEventActsAsClear : Prop :=
  ∀ s : State, perform .reset s = exec .clr s ∧ ∃ t, perform .reset s = .next t ∧ t.ccu.Cleared

/-- The step takes the host's oldest access off the list and performs it; where the access writes an opcode to CMD it runs
the decoded command (10_state.md section 6). With no access to come nothing changes. The list is the model's form of the
host (log entry 1). -/
def Obligations.StepRunsDecodedCommand : Prop :=
  (∀ (s : State) (x : Access) (rest : List Access), s.host.pending = x :: rest → step s = perform x (s.withPending rest)) ∧
  (∀ (s : State) (addr : BitVec 8) (value : Nat) (rest : List Access) (i : Instr),
    s.host.pending = .write addr value :: rest → portMap addr = some .cmd → decode (lowByte value) = .ok i →
    step s = exec i (s.withPending rest)) ∧
  (∀ (s : State) (i : Instr), step (s.withFetchWord 8 (encode i).toNat) = exec i s) ∧
  (∀ s : State, s.host.pending = [] → step s = .next s)

/-- The opcode map of 30_encoding.md section 1: the four words, and nothing else, are commands. -/
def Obligations.OpcodeWordsDecode : Prop :=
  decode 0b00000001#8 = .ok .ldcal ∧ decode 0b00000010#8 = .ok .ldraw ∧
  decode 0b00000011#8 = .ok .comp ∧ decode 0b00000100#8 = .ok .clr ∧
  ∀ v : Byte, v ≠ 0x01#8 → v ≠ 0x02#8 → v ≠ 0x03#8 → v ≠ 0x04#8 → decode v = .error (.reserved v)

/-- Decode and encode agree, both ways. -/
def Obligations.DecodeAndEncodeAgree : Prop :=
  (∀ i : Instr, decode (encode i) = .ok i) ∧ (∀ (v : Byte) (i : Instr), decode v = .ok i → v = encode i)

/-- R72, R161: a CMD write of a reserved value sets ERR to E_ILLCMD and changes nothing else. -/
def Obligations.ReservedOpcodeIsIllegal : Prop :=
  ∀ (s : State) (addr : BitVec 8) (value : Nat), addr = 0x40#8 →
    (∀ v ∈ [0x01#8, 0x02#8, 0x03#8, 0x04#8], BitVec.ofNat 8 value ≠ v) →
    perform (.write addr value) s = .next (s.withCcu { s.ccu with err := 1#3 })

/-- R170: every command ends with one result code in ERR, and the CCU never stops. -/
def Obligations.NeverStops : Prop :=
  (∀ s : State, ∃ t, step s = .next t) ∧
  (∀ (v : Byte) (s : State), ∃ t e, command v s = .next t ∧ t.ccu.err = ErrCode.code e)

/-- R62: the state after a sequence of accesses is the fold of the transition function over the sequence. -/
def Obligations.RunIsFoldOfAccesses : Prop :=
  ∀ (xs rest : List Access) (s : State),
    core.run xs.length (s.withPending (xs ++ rest)) = performAll xs (s.withPending rest)

/-! ### The port -/

/-- The port map of 20_memory.md section 1, address by address; every other address names nothing. -/
def Obligations.PortMapTable : Prop :=
  (∀ k : Fin 26, portMap (BitVec.ofNat 8 (0x00 + k)) = some (.a k)) ∧
  (∀ k : Fin 7, portMap (BitVec.ofNat 8 (0x20 + k)) = some (.b k)) ∧
  (∀ k : Fin 8, portMap (BitVec.ofNat 8 (0x30 + k)) = some (.d k)) ∧
  portMap 0x40#8 = some .cmd ∧ portMap 0x41#8 = some .status ∧
  portMap 0x50#8 = some (.coef .t1) ∧ portMap 0x51#8 = some (.coef .t2) ∧ portMap 0x52#8 = some (.coef .t3) ∧
  portMap 0x53#8 = some (.coef .p1) ∧ portMap 0x54#8 = some (.coef .p2) ∧ portMap 0x55#8 = some (.coef .p3) ∧
  portMap 0x56#8 = some (.coef .p4) ∧ portMap 0x57#8 = some (.coef .p5) ∧ portMap 0x58#8 = some (.coef .p6) ∧
  portMap 0x59#8 = some (.coef .p7) ∧ portMap 0x5A#8 = some (.coef .p8) ∧ portMap 0x5B#8 = some (.coef .p9) ∧
  portMap 0x5C#8 = some (.coef .h1) ∧ portMap 0x5D#8 = some (.coef .h2) ∧ portMap 0x5E#8 = some (.coef .h3) ∧
  portMap 0x5F#8 = some (.coef .h4) ∧ portMap 0x60#8 = some (.coef .h5) ∧ portMap 0x61#8 = some (.coef .h6) ∧
  portMap 0x68#8 = some .adcP ∧ portMap 0x69#8 = some .adcT ∧ portMap 0x6A#8 = some .adcH ∧
  portMap 0x70#8 = some .tFine ∧ portMap 0x71#8 = some .tempC ∧ portMap 0x72#8 = some .tempF ∧
  portMap 0x73#8 = some .pressPa ∧ portMap 0x74#8 = some .humPct ∧
  (∀ addr : BitVec 8,
    (0x1A#8 ≤ addr ∧ addr ≤ 0x1F#8) ∨ (0x27#8 ≤ addr ∧ addr ≤ 0x2F#8) ∨ (0x38#8 ≤ addr ∧ addr ≤ 0x3F#8) ∨
    (0x42#8 ≤ addr ∧ addr ≤ 0x4F#8) ∨ (0x62#8 ≤ addr ∧ addr ≤ 0x67#8) ∨ (0x6B#8 ≤ addr ∧ addr ≤ 0x6F#8) ∨
    0x75#8 ≤ addr → portMap addr = none)

/-- The map is injective, and every register has its address (20_memory.md section 1). -/
def Obligations.PortMapIsInjective : Prop :=
  (∀ r : Reg, portMap r.addr = some r) ∧
  (∀ (x y : BitVec 8) (r : Reg), portMap x = some r → portMap y = some r → x = y)

/-- R162: what a host write does, address range by address range. -/
def Obligations.HostWriteEffect : Prop :=
  ∀ (s : State) (addr : BitVec 8) (value : Nat),
    let v : Byte := BitVec.ofNat 8 value
    (∀ h : addr.toNat < 26, perform (.write addr value) s = .next (s.withCcu { s.ccu with
      win := { s.ccu.win with a := s.ccu.win.a.set addr.toNat v, av := s.ccu.win.av.set addr.toNat true } })) ∧
    (∀ h : 0x20 ≤ addr.toNat ∧ addr.toNat - 0x20 < 7, perform (.write addr value) s = .next (s.withCcu { s.ccu with
      win := { s.ccu.win with b := s.ccu.win.b.set (addr.toNat - 0x20) v (by omega),
                              bv := s.ccu.win.bv.set (addr.toNat - 0x20) true (by omega) } })) ∧
    (∀ h : 0x30 ≤ addr.toNat ∧ addr.toNat - 0x30 < 8, perform (.write addr value) s = .next (s.withCcu { s.ccu with
      win := { s.ccu.win with d := s.ccu.win.d.set (addr.toNat - 0x30) v (by omega),
                              dv := s.ccu.win.dv.set (addr.toNat - 0x30) true (by omega) } })) ∧
    (addr.toNat = 0x40 → perform (.write addr value) s = command v s) ∧
    (26 ≤ addr.toNat → (addr.toNat < 0x20 ∨ 0x26 < addr.toNat) → (addr.toNat < 0x30 ∨ 0x37 < addr.toNat) →
      addr.toNat ≠ 0x40 → perform (.write addr value) s = .next s)

/-- What a host read returns (43_control.md, host read; the addresses and types of 20_memory.md section 1 and 10_state.md):
for each address that names a register that holds a value, that register, whole, in its own type, a signed register as
its signed value; STATUS always, as {ERR[2:0], HV, PV, TV, RAWV, CALV}. A read changes no state of the CCU. Where the
register holds no value, or there is none, nothing is said of the value returned. That the value returned is recorded as
the newest of `replies` is the model's choice (log entry 2), and that it carries its type is deduced (log entry 16). -/
def Obligations.HostReadReturnsHeldValue : Prop :=
  (∀ (s : State) (addr : BitVec 8),
    let c := s.ccu
    ∃ t v, perform (.read addr) s = .next t ∧ t.ccu = c ∧ t.host.pending = s.host.pending ∧
      t.host.replies = v :: s.host.replies ∧
      (∀ (r : Reg) (x : PortValue), portMap addr = some r → c.value r = some x → v = x) ∧
      (addr = 0x41#8 → v = .u8 (c.err ++ BitVec.ofBool c.hv ++ BitVec.ofBool c.pv ++ BitVec.ofBool c.tv ++
        BitVec.ofBool c.rawv ++ BitVec.ofBool c.calv)) ∧
      (∀ k : Fin 26, addr.toNat = 0x00 + k.val → c.win.av[k] = true → v = .u8 c.win.a[k]) ∧
      (∀ k : Fin 7, addr.toNat = 0x20 + k.val → c.win.bv[k] = true → v = .u8 c.win.b[k]) ∧
      (∀ k : Fin 8, addr.toNat = 0x30 + k.val → c.win.dv[k] = true → v = .u8 c.win.d[k]) ∧
      (c.calv = true →
        (∀ p ∈ [(0x50#8, c.coef.t1), (0x53#8, c.coef.p1)], addr = p.1 →
          v = .u16 p.2 ∧ integerOf v = some (p.2.toNat : Int)) ∧
        (∀ p ∈ [(0x51#8, c.coef.t2), (0x52#8, c.coef.t3), (0x54#8, c.coef.p2), (0x55#8, c.coef.p3), (0x56#8, c.coef.p4),
            (0x57#8, c.coef.p5), (0x58#8, c.coef.p6), (0x59#8, c.coef.p7), (0x5A#8, c.coef.p8), (0x5B#8, c.coef.p9),
            (0x5D#8, c.coef.h2), (0x5F#8, c.coef.h4), (0x60#8, c.coef.h5)], addr = p.1 →
          v = .s16 p.2 ∧ integerOf v = some p.2.toInt) ∧
        (∀ p ∈ [(0x5C#8, c.coef.h1), (0x5E#8, c.coef.h3)], addr = p.1 →
          v = .u8 p.2 ∧ integerOf v = some (p.2.toNat : Int)) ∧
        (addr = 0x61#8 → v = .s8 c.coef.h6 ∧ integerOf v = some c.coef.h6.toInt)) ∧
      (c.rawv = true →
        (∀ p ∈ [(0x68#8, c.adc.p), (0x69#8, c.adc.t)], addr = p.1 →
          v = .u20 p.2 ∧ integerOf v = some (p.2.toNat : Int)) ∧
        (addr = 0x6A#8 → v = .u16 c.adc.h ∧ integerOf v = some (c.adc.h.toNat : Int))) ∧
      (c.tv = true →
        (addr = 0x70#8 → v = .s32 c.tFine ∧ integerOf v = some c.tFine.toInt) ∧
        (addr = 0x71#8 → v = .fp c.tempC) ∧ (addr = 0x72#8 → v = .fp c.tempF)) ∧
      (c.pv = true → addr = 0x73#8 → v = .fp c.pressPa) ∧
      (c.hv = true → addr = 0x74#8 → v = .fp c.humPct)) ∧
  (∀ c : Ccu, c.value .status = some (.u8 (c.err ++ BitVec.ofBool c.hv ++ BitVec.ofBool c.pv ++ BitVec.ofBool c.tv ++
    BitVec.ofBool c.rawv ++ BitVec.ofBool c.calv)))

/-- When a register holds a value (10_state.md section 7); and a register that holds none influences nothing: two states
that hold the same values and have the same host take every step alike, to states that again hold the same values and
have the same host, what the reads returned included. That a read of a register that holds no value returns the same in
both is the model's choice: its free value depends on the count of draws alone (log entries 6 and 8), where the spec
would allow it to depend on the stored contents. -/
def Obligations.UnheldContentsNeverMatter : Prop :=
  (∀ c : Ccu, (∀ r, c.holds (.coef r) = c.calv) ∧
    c.holds .adcP = c.rawv ∧ c.holds .adcT = c.rawv ∧ c.holds .adcH = c.rawv ∧
    c.holds .tFine = c.tv ∧ c.holds .tempC = c.tv ∧ c.holds .tempF = c.tv ∧
    c.holds .pressPa = c.pv ∧ c.holds .humPct = c.hv ∧ c.holds .status = true ∧
    (∀ k, c.holds (.a k) = c.win.av[k]) ∧ (∀ k, c.holds (.b k) = c.win.bv[k]) ∧ (∀ k, c.holds (.d k) = c.win.dv[k])) ∧
  (∀ s t s' : State, s.Indistinguishable t → step s = .next s' → ∃ t', step t = .next t' ∧ s'.Indistinguishable t')

/-- The fields of STATUS (10_state.md section 6). -/
def Obligations.StatusLayout : Prop :=
  ∀ c : Ccu, c.status.getLsbD 0 = c.calv ∧ c.status.getLsbD 1 = c.rawv ∧ c.status.getLsbD 2 = c.tv ∧
    c.status.getLsbD 3 = c.pv ∧ c.status.getLsbD 4 = c.hv ∧ c.status.extractLsb' 5 3 = c.err

/-- Every line of the host script stands for the accesses of 30_encoding.md section 4 and no others: one access for WR, CMD,
RD and RESET; for a fill exactly one write for each of its bytes, to ascending addresses, which for a well-formed fill
name the bytes of its window in order; for LOADCAL and READRAW their fills and then the command. -/
def Obligations.ScriptLinesExpand : Prop :=
  (∀ (addr : BitVec 8) (b : Byte), (Line.wr addr b).expand = [.write addr b.toNat]) ∧
  (Line.cmd .ldcal).expand = [.write 0x40#8 0x01] ∧ (Line.cmd .ldraw).expand = [.write 0x40#8 0x02] ∧
  (Line.cmd .comp).expand = [.write 0x40#8 0x03] ∧ (Line.cmd .clr).expand = [.write 0x40#8 0x04] ∧
  (∀ v : Byte, (Line.cmdRaw v).expand = [.write 0x40#8 v.toNat]) ∧
  (∀ addr : BitVec 8, (Line.rd addr).expand = [.read addr]) ∧
  (∀ r : Reg, ∃ addr, (Line.rdName r).expand = [.read addr] ∧ portMap addr = some r) ∧
  Line.reset.expand = [.reset] ∧
  (∀ bytes : List Byte,
    (Line.fillA bytes).expand.length = bytes.length ∧ (Line.fillB bytes).expand.length = bytes.length ∧
    (Line.fillD bytes).expand.length = bytes.length ∧
    ∀ (k : Nat) (b : Byte), bytes[k]? = some b →
      (Line.fillA bytes).expand[k]? = some (.write (BitVec.ofNat 8 (0x00 + k)) b.toNat) ∧
      (Line.fillB bytes).expand[k]? = some (.write (BitVec.ofNat 8 (0x20 + k)) b.toNat) ∧
      (Line.fillD bytes).expand[k]? = some (.write (BitVec.ofNat 8 (0x30 + k)) b.toNat) ∧
      ((Line.fillA bytes).wf = true → portMap (BitVec.ofNat 8 (0x00 + k)) = some (.a (Fin.ofNat 26 k))) ∧
      ((Line.fillB bytes).wf = true → portMap (BitVec.ofNat 8 (0x20 + k)) = some (.b (Fin.ofNat 7 k))) ∧
      ((Line.fillD bytes).wf = true → portMap (BitVec.ofNat 8 (0x30 + k)) = some (.d (Fin.ofNat 8 k)))) ∧
  (∀ a b : List Byte, (Line.loadCal a b).expand =
    (Line.fillA a).expand ++ (Line.fillB b).expand ++ (Line.cmd .ldcal).expand) ∧
  (∀ d : List Byte, (Line.readRaw d).expand = (Line.fillD d).expand ++ (Line.cmd .ldraw).expand)

/-! ### LDCAL -/

/-- R76: a little-endian pair is the pattern {hi, lo}, read unsigned or in two's complement, and the sign-extension law. -/
def Obligations.LittleEndianPairLaw : Prop :=
  ∀ lo hi : Byte,
    u16le lo hi = lo.toNat + hi.toNat * 256 ∧
    u16le lo hi = (hi ++ lo : BitVec 16).toNat ∧ u16le lo hi ≤ 65535 ∧
    s16le lo hi = (hi ++ lo : BitVec 16).toInt ∧
    s16le lo hi = lo.toNat + hi.toNat * 256 - (if lo.toNat + hi.toNat * 256 > 32767 then 65536 else 0)

/-- R77: the signed byte is the byte in two's complement; the unsigned one is the byte. -/
def Obligations.SignedByteLaw : Prop :=
  ∀ b : Byte, s8 b = b.toInt ∧ u8 b = b.toNat ∧ s8 b = b.toNat - (if b.toNat > 127 then 256 else 0)

/-- The packed coefficients H4 and H5 are 12-bit patterns read unsigned, in 0..4095, and each value determines the bits
it comes from (30_encoding.md section 3, 40_calibration_decode.md's ranges, 90_conflicts.md C2). -/
def Obligations.PackedHumidityLaw : Prop :=
  (∀ b3 b4 : Byte, h4 b3 b4 = ((b3 ++ b4.extractLsb' 0 4 : BitVec 12).toNat : Int)) ∧
  (∀ b4 b5 : Byte, h5 b4 b5 = ((b5 ++ b4.extractLsb' 4 4 : BitVec 12).toNat : Int)) ∧
  (∀ (n : Nat) (b3 b4 : Byte), n ≤ 4095 → (h4 b3 b4 = n ↔ b3.toNat = n / 16 ∧ b4.toNat % 16 = n % 16)) ∧
  (∀ (n : Nat) (b4 b5 : Byte), n ≤ 4095 → (h5 b4 b5 = n ↔ b5.toNat = n / 16 ∧ b4.toNat / 16 = n % 16))

/-- R101 to R106, and the completion of LDCAL: with CALV = 0 and the 32 needed bytes valid, LDCAL writes each coefficient
from its bytes, sets CALV, ends with OK, and changes nothing else. -/
def Obligations.LdcalLoadsCoefficients : Prop :=
  ∀ s : State, s.ccu.calv = false → (∀ k : Fin 26, k ≠ 24 → s.ccu.win.av[k] = true) →
    (∀ k : Fin 7, s.ccu.win.bv[k] = true) →
    ∃ t, exec .ldcal s = .next t ∧
      (let A := fun k : Fin 26 => s.ccu.win.a[k].toNat
       let B := fun k : Fin 7 => s.ccu.win.b[k].toNat
       let signed := fun n : Nat => if n > 32767 then (n : Int) - 65536 else (n : Int)
       t.ccu.coef.t1.toNat = A 0 + A 1 * 256 ∧
       t.ccu.coef.t2.toInt = signed (A 2 + A 3 * 256) ∧
       t.ccu.coef.t3.toInt = signed (A 4 + A 5 * 256) ∧
       t.ccu.coef.p1.toNat = A 6 + A 7 * 256 ∧
       t.ccu.coef.p2.toInt = signed (A 8 + A 9 * 256) ∧
       t.ccu.coef.p3.toInt = signed (A 10 + A 11 * 256) ∧
       t.ccu.coef.p4.toInt = signed (A 12 + A 13 * 256) ∧
       t.ccu.coef.p5.toInt = signed (A 14 + A 15 * 256) ∧
       t.ccu.coef.p6.toInt = signed (A 16 + A 17 * 256) ∧
       t.ccu.coef.p7.toInt = signed (A 18 + A 19 * 256) ∧
       t.ccu.coef.p8.toInt = signed (A 20 + A 21 * 256) ∧
       t.ccu.coef.p9.toInt = signed (A 22 + A 23 * 256) ∧
       t.ccu.coef.h1.toNat = A 25 ∧
       t.ccu.coef.h2.toInt = signed (B 0 + B 1 * 256) ∧
       t.ccu.coef.h3.toNat = B 2 ∧
       t.ccu.coef.h4.toInt = B 3 * 16 + B 4 % 16 ∧ t.ccu.coef.h4.toInt ≤ 4095 ∧
       t.ccu.coef.h5.toInt = B 4 / 16 + B 5 * 16 ∧ t.ccu.coef.h5.toInt ≤ 4095 ∧
       t.ccu.coef.h6.toInt = (if B 6 > 127 then (B 6 : Int) - 256 else (B 6 : Int))) ∧
      t = s.withCcu { s.ccu with coef := t.ccu.coef, calv := true, err := 0#3 }

/-- The errors of LDCAL (40_calibration_decode.md, errors): while CALV = 1 it ends with E_LOCKED, whatever the windows hold; else with E_SHORT if a
needed byte is not valid; and nothing but ERR changes. -/
def Obligations.LdcalErrors : Prop :=
  ∀ s : State,
    (s.ccu.calv = true → exec .ldcal s = .next (s.withCcu { s.ccu with err := 3#3 })) ∧
    (s.ccu.calv = false →
      (∃ k : Fin 26, k ≠ 24 ∧ s.ccu.win.av[k] = false) ∨ (∃ k : Fin 7, s.ccu.win.bv[k] = false) →
      exec .ldcal s = .next (s.withCcu { s.ccu with err := 2#3 }))

/-- Neither A[24] nor AV[24] influences any command (40_calibration_decode.md, the undecoded byte of window A): changing
them first and running the command gives what running the command first and changing them gives (for CLR, which clears
AV[24], changing the byte alone). That a command leaves the stored byte as it is where CLR leaves no value held is the
model's choice (log entry 5). -/
def Obligations.UndecodedByteIsIgnored : Prop :=
  ∀ (i : Instr) (s t : State) (x : Byte) (valid : Bool), exec i s = .next t →
    exec i (s.withCcu { s.ccu with
      win := { s.ccu.win with a := s.ccu.win.a.set 24 x, av := s.ccu.win.av.set 24 valid } }) =
    .next (t.withCcu { t.ccu with
      win := { t.ccu.win with a := t.ccu.win.a.set 24 x,
                              av := if i = .clr then t.ccu.win.av else t.ccu.win.av.set 24 valid } })

/-- Every signed 16-bit value comes from exactly one byte pair (40_calibration_decode.md's ranges). -/
def Obligations.PairDecodeIsBijective : Prop :=
  ∀ v : Int, -32768 ≤ v → v ≤ 32767 → ∃ lo hi : Byte, s16le lo hi = v ∧
    ∀ lo' hi' : Byte, s16le lo' hi' = v → lo' = lo ∧ hi' = hi

/-- R110: immutability over a session. An LDCAL with CALV = 1 ends with E_LOCKED and changes nothing but ERR, whatever the
windows hold; and from a state with CALV = 1 any sequence of accesses without a reset or CLR leaves every coefficient and
CALV as they are, so that a new set can be loaded only after one of these. -/
def Obligations.CoefficientsImmutableInSession : Prop :=
  (∀ s : State, s.ccu.calv = true → exec .ldcal s = .next (s.withCcu { s.ccu with err := 3#3 })) ∧
  (∀ (xs : List Access) (s t : State), s.ccu.calv = true → (∀ x ∈ xs, ¬ x.EndsSession) →
    performAll xs s = .next t → t.ccu.coef = s.ccu.coef ∧ t.ccu.calv = true)

/-! ### LDRAW -/

/-- R81: the 16-bit ADC value is the pattern {msb, lsb} read unsigned. -/
def Obligations.Adc16Law : Prop :=
  ∀ msb lsb : Byte, adc16 msb lsb = msb.toNat * 256 + lsb.toNat ∧ adc16 msb lsb ≤ 65535 ∧
    adc16 msb lsb = (msb ++ lsb : BitVec 16).toNat

/-- The 20-bit ADC value (30_encoding.md section 3; that the XLSB byte's high nibble is the low end is the spec's general
knowledge, log entry 12): the pattern {msb, lsb, xlsb[7:4]}, and each value determines the bits it comes from. -/
def Obligations.Adc20Law : Prop :=
  (∀ msb lsb xlsb : Byte, adc20 msb lsb xlsb = (msb ++ lsb ++ xlsb.extractLsb' 4 4 : BitVec 20).toNat) ∧
  (∀ (n : Nat) (msb lsb xlsb : Byte), n ≤ 1048575 →
    (adc20 msb lsb xlsb = n ↔ msb.toNat = n / 4096 ∧ lsb.toNat = n / 16 % 256 ∧ xlsb.toNat / 16 = n % 16))

/-- The completion of LDRAW (41_raw_unpack.md; the XLSB nibble is the spec's general knowledge, log entry 12): with all 8
bytes of D valid it writes the three ADC registers, sets RAWV, clears TV, PV, HV and DV, ends with OK, and changes
nothing else. -/
def Obligations.LdrawUnpacksReading : Prop :=
  ∀ s : State, (∀ k : Fin 8, s.ccu.win.dv[k] = true) →
    ∃ t, exec .ldraw s = .next t ∧
      (let D := fun k : Fin 8 => s.ccu.win.d[k].toNat
       t.ccu.adc.p.toNat = D 0 * 4096 + D 1 * 16 + D 2 / 16 ∧
       t.ccu.adc.t.toNat = D 3 * 4096 + D 4 * 16 + D 5 / 16 ∧
       t.ccu.adc.h.toNat = D 6 * 256 + D 7) ∧
      (∀ k : Fin 8, t.ccu.win.dv[k] = false) ∧
      t = s.withCcu { s.ccu with
        adc := t.ccu.adc, rawv := true, tv := false, pv := false, hv := false,
        win := { s.ccu.win with dv := t.ccu.win.dv }, err := 0#3 }

/-- R121: with a byte of D not valid LDRAW ends with E_SHORT, and nothing but ERR changes. -/
def Obligations.LdrawShortBurst : Prop :=
  ∀ s : State, (∃ k : Fin 8, s.ccu.win.dv[k] = false) →
    exec .ldraw s = .next (s.withCcu { s.ccu with err := 2#3 })

/-- R122: a successful LDRAW clears DV, and after it no further LDRAW succeeds while some byte of D has not been written
again: whatever else the host does, it ends with E_SHORT. -/
def Obligations.WindowIsConsumed : Prop :=
  ∀ (xs : List Access) (s t u : State) (k : Fin 8), (∀ j : Fin 8, s.ccu.win.dv[j] = true) →
    exec .ldraw s = .next t → (∀ x ∈ xs, ¬ x.WritesTo (.d k)) → performAll xs t = .next u →
    (∀ j : Fin 8, t.ccu.win.dv[j] = false) ∧
    exec .ldraw u = .next (u.withCcu { u.ccu with err := 2#3 })

/-- R123: a successful LDRAW clears TV, PV and HV, so that T_FINE and the four outputs hold no value; with the calibration
loaded they hold one again after the next COMP (PRESS_PA if the denominator is not zero). -/
def Obligations.LdrawInvalidatesOutputs : Prop :=
  ∀ s : State, (∀ k : Fin 8, s.ccu.win.dv[k] = true) →
    ∃ t, exec .ldraw s = .next t ∧ t.ccu.tv = false ∧ t.ccu.pv = false ∧ t.ccu.hv = false ∧
      (∀ r ∈ [Reg.tFine, .tempC, .tempF, .pressPa, .humPct], t.ccu.holds r = false) ∧
      (s.ccu.calv = true → ∃ u, exec .comp t = .next u ∧
        (∀ r ∈ [Reg.tFine, .tempC, .tempF, .humPct], u.ccu.holds r = true) ∧
        u.ccu.holds .pressPa = !denominatorIsZero Binary64.arith t.ccu.coef t.ccu.adc)

/-! ### COMP -/

/-- R130, R143, R146: the tests of COMP in their order, what it writes when both preconditions hold, from the stage
functions alone, and that it changes nothing else. The completion of COMP. -/
def Obligations.CompRunsItsStages : Prop :=
  ∀ s : State,
    let fp := Binary64.arith
    let c := s.ccu
    let st := stageT fp c.adc.t.toNat c.coef.t1.toNat c.coef.t2.toInt c.coef.t3.toInt
    let den := pressDen fp st.2 c.coef.p1.toNat c.coef.p2.toInt c.coef.p3.toInt
    (c.calv = false → exec .comp s = .next (s.withCcu { c with err := 4#3 })) ∧
    (c.calv = true → c.rawv = false → exec .comp s = .next (s.withCcu { c with err := 5#3 })) ∧
    (c.calv = true → c.rawv = true → ∃ t, exec .comp s = .next t ∧
      t.ccu.tFine = BitVec.ofInt 32 st.2 ∧
      t.ccu.tempC = fp.fdiv st.1 (fp.flit 5120 1) ∧
      t.ccu.tempF = fp.fadd (fp.fmul t.ccu.tempC (fp.flit 18 10)) (fp.flit 32 1) ∧
      t.ccu.humPct = clamp fp (humPoly fp st.2 c.adc.h.toNat c.coef.h1.toNat c.coef.h2.toInt c.coef.h3.toNat
        c.coef.h4.toInt c.coef.h5.toInt c.coef.h6.toInt) ∧
      t.ccu.tv = true ∧ t.ccu.hv = true ∧
      (fp.feq den (fp.flit 0 1) = true → t.ccu.pv = false ∧ t.ccu.err = 6#3 ∧ t.ccu.pressPa = c.pressPa) ∧
      (fp.feq den (fp.flit 0 1) = false → t.ccu.pv = true ∧ t.ccu.err = 0#3 ∧
        t.ccu.pressPa = pressPoly fp st.2 c.adc.p.toNat den c.coef.p4.toInt c.coef.p5.toInt c.coef.p6.toInt
          c.coef.p7.toInt c.coef.p8.toInt c.coef.p9.toInt) ∧
      t = s.withCcu { c with
        tFine := t.ccu.tFine, tempC := t.ccu.tempC, tempF := t.ccu.tempF, pressPa := t.ccu.pressPa,
        humPct := t.ccu.humPct, tv := true, pv := t.ccu.pv, hv := true, err := t.ccu.err })

/-- R144: what COMP writes is a function of the coefficients and the ADC values alone: two states that agree on these get
the same values, whatever else they hold; and two COMP commands with no LDRAW, CLR or reset between them write identical
values, whatever else the host does between them (LDCAL and COMP among it). -/
def Obligations.CompIsPure : Prop :=
  (∀ s s' t t' : State, s.ccu.calv = true → s.ccu.rawv = true → s'.ccu.calv = true → s'.ccu.rawv = true →
    s'.ccu.coef = s.ccu.coef → s'.ccu.adc = s.ccu.adc → exec .comp s = .next t → exec .comp s' = .next t' →
    t'.ccu.tFine = t.ccu.tFine ∧ t'.ccu.tempC = t.ccu.tempC ∧ t'.ccu.tempF = t.ccu.tempF ∧
    t'.ccu.humPct = t.ccu.humPct ∧ t'.ccu.pv = t.ccu.pv ∧ t'.ccu.err = t.ccu.err ∧
    (t.ccu.pv = true → t'.ccu.pressPa = t.ccu.pressPa)) ∧
  ∀ (xs : List Access) (s t u v : State), s.ccu.calv = true → s.ccu.rawv = true →
    exec .comp s = .next t → (∀ x ∈ xs, ¬ x.EndsSession ∧ ¬ x.Issues .ldraw) → performAll xs t = .next u →
    exec .comp u = .next v →
    v.ccu.tFine = t.ccu.tFine ∧ v.ccu.tempC = t.ccu.tempC ∧ v.ccu.tempF = t.ccu.tempF ∧
    v.ccu.humPct = t.ccu.humPct ∧ v.ccu.pv = t.ccu.pv ∧ v.ccu.pressPa = t.ccu.pressPa ∧ v.ccu.err = t.ccu.err

/-- R142: the clamp. A value above 100 becomes exactly 100, a value below 0 exactly 0, any other is returned unchanged,
100, 0 and -0 among them; and what is returned lies in the closed interval. -/
def Obligations.ClampToClosedInterval : Prop :=
  ∀ h : F64, Binary64.isNan h = false →
    (100 * (Binary64.scale : Int) < Binary64.units h → clamp Binary64.arith h = 0x4059000000000000#64) ∧
    (Binary64.units h < 0 → clamp Binary64.arith h = 0x0000000000000000#64) ∧
    (0 ≤ Binary64.units h → Binary64.units h ≤ 100 * (Binary64.scale : Int) → clamp Binary64.arith h = h) ∧
    0 ≤ Binary64.units (clamp Binary64.arith h) ∧
    Binary64.units (clamp Binary64.arith h) ≤ 100 * (Binary64.scale : Int) ∧
    Binary64.isFinite (clamp Binary64.arith h) = true

/-- Stage T against exact arithmetic (42_compensation.md sections 1 and 2): var1 is exact, so the sum s is the rounded sum of
the exact var1 and the once rounded var2; t_fine is its floor and TEMP_C its once rounded quotient by 5120. -/
def Obligations.StageTRoundsExactFormula : Prop :=
  ∀ adcT t1 t2 t3 : Int, 0 ≤ adcT → adcT ≤ 1048575 → 0 ≤ t1 → t1 ≤ 65535 →
    -32768 ≤ t2 → t2 ≤ 32767 → -32768 ≤ t3 → t3 ≤ 32767 →
    ∃ var2 : F64,
      let s := (stageT Binary64.arith adcT t1 t2 t3).1
      let tFine := (stageT Binary64.arith adcT t1 t2 t3).2
      Binary64.NearestEven ((adcT - 16 * t1) ^ 2 * t3 * Binary64.scale) (2 ^ 34) var2 ∧
      Binary64.NearestEven ((adcT - 16 * t1) * t2 * Binary64.scale + 2 ^ 14 * Binary64.units var2) (2 ^ 14) s ∧
      tFine * Binary64.scale ≤ Binary64.units s ∧ Binary64.units s < (tFine + 1) * Binary64.scale ∧
      Binary64.NearestEven (Binary64.units s) 5120 (tempCOf Binary64.arith s)

/-- t_fine and the temperatures are bounded (42_compensation.md section 5, bounds). -/
def Obligations.StageTIsBounded : Prop :=
  ∀ (k : CoefFile) (r : AdcFile),
    -4194304 ≤ (stageTOf Binary64.arith k r).2 ∧ (stageTOf Binary64.arith k r).2 ≤ 4194303 ∧
    (BitVec.ofInt 32 (stageTOf Binary64.arith k r).2).toInt = (stageTOf Binary64.arith k r).2 ∧
    Binary64.isFinite (temperatureC Binary64.arith k r) = true ∧
    Binary64.isFinite (temperatureF Binary64.arith k r) = true

/-- With the guard no pressure is an infinity or a NaN (42_compensation.md section 5, bounds; the body is the spec's
general knowledge, log entry 13). -/
def Obligations.GuardedPressureIsFinite : Prop :=
  ∀ (k : CoefFile) (r : AdcFile), denominatorIsZero Binary64.arith k r = false →
    Binary64.isFinite (pressure Binary64.arith k r) = true

/-- The humidity is finite and in [0, 100] (42_compensation.md sections 4 and 5; the body is the spec's general knowledge,
log entry 14). -/
def Obligations.HumidityIsInRange : Prop :=
  ∀ (k : CoefFile) (r : AdcFile),
    Binary64.isFinite (humidity Binary64.arith k r) = true ∧
    0 ≤ Binary64.units (humidity Binary64.arith k r) ∧
    Binary64.units (humidity Binary64.arith k r) ≤ 100 * (Binary64.scale : Int)

/-- P1 = 0 makes the pressure denominator zero (42_compensation.md section 3; the body is the spec's general knowledge, log
entry 13). -/
def Obligations.DenominatorIsZeroForZeroP1 : Prop :=
  ∀ (k : CoefFile) (r : AdcFile), k.p1 = 0#16 → denominatorIsZero Binary64.arith k r = true

/-! ### CLR, errors, frames -/

/-- CLR (43_control.md, CLR; 10_state.md section 8): it clears every flag, every valid bit and ERR, in every state; its
effect is that of the reset event; after it no register but STATUS holds a value; in the reset state it changes nothing.
That the stored contents stay as they are, which the first clause says, is the model's choice (log entry 5). -/
def Obligations.ClrEndsSession : Prop :=
  (∀ s : State, exec .clr s = .next (s.withCcu { s.ccu with
    calv := false, rawv := false, tv := false, pv := false, hv := false, err := 0#3,
    win := { s.ccu.win with av := Vector.replicate 26 false, bv := Vector.replicate 7 false,
                            dv := Vector.replicate 8 false } })) ∧
  (∀ s : State, exec .clr s = .next (resetEvent s)) ∧
  (∀ (s t : State) (r : Reg), exec .clr s = .next t → r ≠ .status → t.ccu.holds r = false) ∧
  exec .clr State.reset = .next State.reset

/-- The first command of a session (70_reset_and_hazards.md section 1): from a cleared state LDCAL and LDRAW end with
E_SHORT, COMP with E_NOCAL and a reserved opcode with E_ILLCMD, nothing but ERR changes, and CLR changes nothing of the
flags, the valid bits and ERR. -/
def Obligations.FirstCommandOfSession : Prop :=
  ∀ s : State, s.ccu.Cleared →
    exec .ldcal s = .next (s.withCcu { s.ccu with err := 2#3 }) ∧
    exec .ldraw s = .next (s.withCcu { s.ccu with err := 2#3 }) ∧
    exec .comp s = .next (s.withCcu { s.ccu with err := 4#3 }) ∧
    (∃ t, exec .clr s = .next t ∧ t.ccu.Cleared ∧ t.ccu.SameHeld s.ccu) ∧
    ∀ v : Byte, decode v = .error (.reserved v) → command v s = .next (s.withCcu { s.ccu with err := 1#3 })

/-- R173: each command reports the first error that applies, in the order of its tests. -/
def Obligations.ErrorPriority : Prop :=
  (∀ s : State, s.ccu.calv = true → ∃ t, exec .ldcal s = .next t ∧ t.ccu.err = 3#3) ∧
  (∀ s : State, s.ccu.calv = false →
    (∃ k : Fin 26, k ≠ 24 ∧ s.ccu.win.av[k] = false) ∨ (∃ k : Fin 7, s.ccu.win.bv[k] = false) →
    ∃ t, exec .ldcal s = .next t ∧ t.ccu.err = 2#3) ∧
  (∀ s : State, (∃ k : Fin 8, s.ccu.win.dv[k] = false) → ∃ t, exec .ldraw s = .next t ∧ t.ccu.err = 2#3) ∧
  (∀ s : State, s.ccu.calv = false → ∃ t, exec .comp s = .next t ∧ t.ccu.err = 4#3) ∧
  (∀ s : State, s.ccu.calv = true → s.ccu.rawv = false → ∃ t, exec .comp s = .next t ∧ t.ccu.err = 5#3) ∧
  (∀ s : State, s.ccu.calv = true → s.ccu.rawv = true →
    denominatorIsZero Binary64.arith s.ccu.coef s.ccu.adc = true → ∃ t, exec .comp s = .next t ∧ t.ccu.err = 6#3) ∧
  (∀ (s : State) (v : Byte), decode v = .error (.reserved v) → ∃ t, command v s = .next t ∧ t.ccu.err = 1#3)

/-- R174: after a command that ends with E_ILLCMD, E_SHORT, E_LOCKED, E_NOCAL or E_NORAW nothing but ERR has changed; after
E_DIV0 stages T and H are written, PV is 0, and PRESS_PA holds no value. -/
def Obligations.ErrorChangesOnlyErr : Prop :=
  ∀ (v : Byte) (s t : State), command v s = .next t →
    (t.ccu.err ≠ 0#3 → t.ccu.err ≠ 6#3 → t = s.withCcu { s.ccu with err := t.ccu.err }) ∧
    (t.ccu.err = 6#3 →
      t.ccu.tFine = BitVec.ofInt 32 (stageTOf Binary64.arith s.ccu.coef s.ccu.adc).2 ∧
      t.ccu.tempC = temperatureC Binary64.arith s.ccu.coef s.ccu.adc ∧
      t.ccu.tempF = temperatureF Binary64.arith s.ccu.coef s.ccu.adc ∧
      t.ccu.humPct = humidity Binary64.arith s.ccu.coef s.ccu.adc ∧
      t.ccu.tv = true ∧ t.ccu.hv = true ∧ t.ccu.pv = false ∧ t.ccu.holds .pressPa = false ∧
      t = s.withCcu { s.ccu with
        tFine := t.ccu.tFine, tempC := t.ccu.tempC, tempF := t.ccu.tempF, humPct := t.ccu.humPct,
        tv := true, pv := false, hv := true, err := 6#3 })

/-- The frame of LDCAL (40_calibration_decode.md, flags written): only the coefficients, CALV and ERR may change. -/
def Obligations.LdcalFrame : Prop :=
  ∀ s t : State, exec .ldcal s = .next t →
    t.host = s.host ∧ t.ccu.adc = s.ccu.adc ∧ t.ccu.tFine = s.ccu.tFine ∧ t.ccu.tempC = s.ccu.tempC ∧
    t.ccu.tempF = s.ccu.tempF ∧ t.ccu.pressPa = s.ccu.pressPa ∧ t.ccu.humPct = s.ccu.humPct ∧
    t.ccu.win = s.ccu.win ∧ t.ccu.rawv = s.ccu.rawv ∧ t.ccu.tv = s.ccu.tv ∧ t.ccu.pv = s.ccu.pv ∧
    t.ccu.hv = s.ccu.hv ∧ (t.ccu.err ≠ 0#3 → t.ccu.coef = s.ccu.coef ∧ t.ccu.calv = s.ccu.calv)

/-- The frame of LDRAW (41_raw_unpack.md, flags written): only the ADC registers, RAWV, TV, PV, HV, DV and ERR may change;
the window bytes stay stored. -/
def Obligations.LdrawFrame : Prop :=
  ∀ s t : State, exec .ldraw s = .next t →
    t.host = s.host ∧ t.ccu.coef = s.ccu.coef ∧ t.ccu.calv = s.ccu.calv ∧ t.ccu.tFine = s.ccu.tFine ∧
    t.ccu.tempC = s.ccu.tempC ∧ t.ccu.tempF = s.ccu.tempF ∧ t.ccu.pressPa = s.ccu.pressPa ∧
    t.ccu.humPct = s.ccu.humPct ∧ t.ccu.win.a = s.ccu.win.a ∧ t.ccu.win.b = s.ccu.win.b ∧
    t.ccu.win.d = s.ccu.win.d ∧ t.ccu.win.av = s.ccu.win.av ∧ t.ccu.win.bv = s.ccu.win.bv ∧
    (t.ccu.err ≠ 0#3 → t.ccu.adc = s.ccu.adc ∧ t.ccu.rawv = s.ccu.rawv ∧ t.ccu.tv = s.ccu.tv ∧
      t.ccu.pv = s.ccu.pv ∧ t.ccu.hv = s.ccu.hv ∧ t.ccu.win.dv = s.ccu.win.dv)

/-- The frame of COMP (42_compensation.md section 1, flags written): only T_FINE, the four outputs, TV, PV, HV and ERR may
change. -/
def Obligations.CompFrame : Prop :=
  ∀ s t : State, exec .comp s = .next t →
    t.host = s.host ∧ t.ccu.coef = s.ccu.coef ∧ t.ccu.adc = s.ccu.adc ∧ t.ccu.win = s.ccu.win ∧
    t.ccu.calv = s.ccu.calv ∧ t.ccu.rawv = s.ccu.rawv

/-- The frame of CLR (43_control.md, CLR): no register's or window byte's stored contents change, which is the model's
choice (log entry 5), and nothing on the host's side. -/
def Obligations.ClrFrame : Prop :=
  ∀ s t : State, exec .clr s = .next t →
    t.host = s.host ∧ t.ccu.coef = s.ccu.coef ∧ t.ccu.adc = s.ccu.adc ∧ t.ccu.tFine = s.ccu.tFine ∧
    t.ccu.tempC = s.ccu.tempC ∧ t.ccu.tempF = s.ccu.tempF ∧ t.ccu.pressPa = s.ccu.pressPa ∧
    t.ccu.humPct = s.ccu.humPct ∧ t.ccu.win.a = s.ccu.win.a ∧ t.ccu.win.b = s.ccu.win.b ∧ t.ccu.win.d = s.ccu.win.d

/-! ### Whole-machine rules -/

/-- Who writes what (10_state.md sections 2 to 6): in any access, the coefficients and CALV's setting come from LDCAL alone,
the ADC registers and RAWV's setting from LDRAW alone, T_FINE, the outputs and the setting of TV, PV and HV from COMP
alone (PV's with a denominator that is not zero), a window byte and the setting of its valid bit from a host write to that
byte alone, and ERR from the reset event or a write to CMD alone. -/
def Obligations.OnlyWriters : Prop :=
  ∀ (x : Access) (s t : State), perform x s = .next t →
    (t.ccu.coef ≠ s.ccu.coef ∨ (s.ccu.calv = false ∧ t.ccu.calv = true) → x.Issues .ldcal ∧ s.ccu.calv = false) ∧
    (t.ccu.adc ≠ s.ccu.adc ∨ (s.ccu.rawv = false ∧ t.ccu.rawv = true) → x.Issues .ldraw) ∧
    (t.ccu.tFine ≠ s.ccu.tFine ∨ t.ccu.tempC ≠ s.ccu.tempC ∨ t.ccu.tempF ≠ s.ccu.tempF ∨
      t.ccu.pressPa ≠ s.ccu.pressPa ∨ t.ccu.humPct ≠ s.ccu.humPct ∨ (s.ccu.tv = false ∧ t.ccu.tv = true) ∨
      (s.ccu.hv = false ∧ t.ccu.hv = true) → x.Issues .comp) ∧
    (s.ccu.pv = false ∧ t.ccu.pv = true →
      x.Issues .comp ∧ denominatorIsZero Binary64.arith s.ccu.coef s.ccu.adc = false) ∧
    (∀ k : Fin 26, t.ccu.win.a[k] ≠ s.ccu.win.a[k] ∨ (s.ccu.win.av[k] = false ∧ t.ccu.win.av[k] = true) →
      x.WritesTo (.a k)) ∧
    (∀ k : Fin 7, t.ccu.win.b[k] ≠ s.ccu.win.b[k] ∨ (s.ccu.win.bv[k] = false ∧ t.ccu.win.bv[k] = true) →
      x.WritesTo (.b k)) ∧
    (∀ k : Fin 8, t.ccu.win.d[k] ≠ s.ccu.win.d[k] ∨ (s.ccu.win.dv[k] = false ∧ t.ccu.win.dv[k] = true) →
      x.WritesTo (.d k)) ∧
    (t.ccu.err ≠ s.ccu.err → x = .reset ∨ x.WritesTo .cmd)

/-- Who clears a flag or a valid bit (10_state.md sections 2 to 6): CALV, RAWV, AV and BV only the reset event and CLR; TV,
HV and DV these and a successful LDRAW; PV these, a successful LDRAW, and a COMP with a zero denominator. -/
def Obligations.OnlyClearersOfValidity : Prop :=
  ∀ (x : Access) (s t : State), perform x s = .next t →
    ((s.ccu.calv = true ∧ t.ccu.calv = false) ∨ (s.ccu.rawv = true ∧ t.ccu.rawv = false) → x.EndsSession) ∧
    (∀ k : Fin 26, s.ccu.win.av[k] = true ∧ t.ccu.win.av[k] = false → x.EndsSession) ∧
    (∀ k : Fin 7, s.ccu.win.bv[k] = true ∧ t.ccu.win.bv[k] = false → x.EndsSession) ∧
    ((s.ccu.tv = true ∧ t.ccu.tv = false) ∨ (s.ccu.hv = true ∧ t.ccu.hv = false) ∨
      (∃ k : Fin 8, s.ccu.win.dv[k] = true ∧ t.ccu.win.dv[k] = false) →
      x.EndsSession ∨ (x.Issues .ldraw ∧ ∀ k : Fin 8, s.ccu.win.dv[k] = true)) ∧
    (s.ccu.pv = true ∧ t.ccu.pv = false →
      x.EndsSession ∨ (x.Issues .ldraw ∧ ∀ k : Fin 8, s.ccu.win.dv[k] = true) ∨
      (x.Issues .comp ∧ denominatorIsZero Binary64.arith s.ccu.coef s.ccu.adc = true))

/-- The reset state meets the invariant. -/
def Obligations.ResetMeetsInv : Prop := State.reset.ccu.Inv

/-- Every step keeps the invariant: the flags hang together, ERR is never 7, the valid outputs are those of the current
reading and coefficients, and H4 and H5 are in 0..4095 (10_state.md sections 4 to 6, 93_implementation_defined.md U6). -/
def Obligations.StepKeepsInv : Prop :=
  ∀ s t : State, s.ccu.Inv → step s = .next t → t.ccu.Inv

/-- The reset state meets the bounds. -/
def Obligations.ResetMeetsBounds : Prop := State.reset.ccu.OutputsBounded

/-- Every step keeps the bounds: each output that holds a value holds a finite number, HUM_PCT one in [0, 100]
(10_state.md section 4, 42_compensation.md section 5). -/
def Obligations.StepKeepsBounds : Prop :=
  ∀ s t : State, s.ccu.OutputsBounded → step s = .next t → t.ccu.OutputsBounded

/-! ### Floating point -/

/-- Each operation on finite operands returns the value nearest the exact real result, ties to even, whenever that result
is within the format's range (42_compensation.md section 1, one precision). -/
def Obligations.ArithmeticIsNearestEven : Prop :=
  ∀ a b : F64, Binary64.isFinite a = true → Binary64.isFinite b = true →
    let x := Binary64.units a
    let y := Binary64.units b
    ((x + y).natAbs ≤ Binary64.maxUnits → Binary64.NearestEven (x + y) 1 (Binary64.fadd a b)) ∧
    ((x - y).natAbs ≤ Binary64.maxUnits → Binary64.NearestEven (x - y) 1 (Binary64.fsub a b)) ∧
    ((x * y).natAbs ≤ Binary64.scale * Binary64.maxUnits →
      Binary64.NearestEven (x * y) Binary64.scale (Binary64.fmul a b)) ∧
    (y ≠ 0 → (x * Binary64.scale).natAbs ≤ y.natAbs * Binary64.maxUnits →
      Binary64.NearestEven (x * Binary64.scale * y.sign) y.natAbs (Binary64.fdiv a b))

/-- The signs of zero results (42_compensation.md section 1): x − x is +0, a zero product or quotient takes the exclusive-or
of the signs, and (+0) + (−0) is +0. -/
def Obligations.SignedZeroRules : Prop :=
  (∀ x : F64, Binary64.isFinite x = true → Binary64.fsub x x = 0x0000000000000000#64) ∧
  (∀ x y : F64, Binary64.isFinite x = true → Binary64.isFinite y = true →
    (Binary64.units x = 0 ∨ Binary64.units y = 0 →
      Binary64.fmul x y =
        if Binary64.sign x = Binary64.sign y then 0x0000000000000000#64 else 0x8000000000000000#64) ∧
    (Binary64.units x = 0 → Binary64.units y ≠ 0 →
      Binary64.fdiv x y =
        if Binary64.sign x = Binary64.sign y then 0x0000000000000000#64 else 0x8000000000000000#64)) ∧
  Binary64.fadd 0x0000000000000000#64 0x8000000000000000#64 = 0x0000000000000000#64

/-- R132: the conversion of an integer below 2^53 is exact, and the floor of a finite value is the greatest integer not
above it. -/
def Obligations.ConversionsAreExact : Prop :=
  (∀ i : Int, i.natAbs < 2 ^ 53 →
    Binary64.isFinite (Binary64.fofint i) = true ∧ Binary64.units (Binary64.fofint i) = i * Binary64.scale) ∧
  (∀ a : F64, Binary64.isFinite a = true →
    Binary64.ffloor a * Binary64.scale ≤ Binary64.units a ∧
    Binary64.units a < (Binary64.ffloor a + 1) * Binary64.scale)

/-- The literals of the stages (42_compensation.md section 1): every integer literal is exact, and 1.8 is the given value. -/
def Obligations.LiteralsConvert : Prop :=
  (∀ n ∈ [0, 1, 2, 4, 16, 32, 64, 100, 1024, 4096, 5120, 6250, 8192, 16384, 32768, 64000, 65536, 76800, 131072, 524288,
      1048576, 67108864, 2147483648],
    Binary64.units (Binary64.flit n 1) = n * Binary64.scale ∧ Binary64.isFinite (Binary64.flit n 1) = true) ∧
  Binary64.flit 18 10 = 0x3FFCCCCCCCCCCCCD#64
end

