-- ==== Sys2Proof/Laws/State.lean ====
section
/-! SUPPORT. The fields after each named update: one lemma per field per update. -/

namespace Sys2Proof.Machine

section StateUpdates

variable (s : State) (c : Ccu) (q : List Access) (v : PortValue)

@[simp] theorem State.withCcu_ccu  : (s.withCcu c).ccu = c := rfl
@[simp] theorem State.withCcu_host  : (s.withCcu c).host = s.host := rfl
@[simp] theorem State.withPending_ccu  : (s.withPending q).ccu = s.ccu := rfl
@[simp] theorem State.withPending_pending  : (s.withPending q).host.pending = q := rfl
@[simp] theorem State.withPending_replies  : (s.withPending q).host.replies = s.host.replies := rfl
@[simp] theorem State.withPending_draws  : (s.withPending q).host.draws = s.host.draws := rfl
@[simp] theorem State.reply_ccu  : (s.reply v).ccu = s.ccu := rfl
@[simp] theorem State.reply_pending  : (s.reply v).host.pending = s.host.pending := rfl
@[simp] theorem State.reply_replies  : (s.reply v).host.replies = v :: s.host.replies := rfl
@[simp] theorem State.reply_draws  : (s.reply v).host.draws = s.host.draws := rfl
@[simp] theorem State.draw_ccu  : (s.draw).ccu = s.ccu := rfl
@[simp] theorem State.draw_pending  : (s.draw).host.pending = s.host.pending := rfl
@[simp] theorem State.draw_replies  : (s.draw).host.replies = s.host.replies := rfl
@[simp] theorem State.draw_draws  : (s.draw).host.draws = s.host.draws + 1 := rfl

end StateUpdates

section CcuUpdates

variable (c : Ccu) (e : ErrCode) (k : CoefFile) (r : AdcFile) (o : Outputs)

@[simp] theorem Ccu.setErr_coef  : (c.setErr e).coef = c.coef := rfl
@[simp] theorem Ccu.setErr_adc  : (c.setErr e).adc = c.adc := rfl
@[simp] theorem Ccu.setErr_tFine  : (c.setErr e).tFine = c.tFine := rfl
@[simp] theorem Ccu.setErr_tempC  : (c.setErr e).tempC = c.tempC := rfl
@[simp] theorem Ccu.setErr_tempF  : (c.setErr e).tempF = c.tempF := rfl
@[simp] theorem Ccu.setErr_pressPa  : (c.setErr e).pressPa = c.pressPa := rfl
@[simp] theorem Ccu.setErr_humPct  : (c.setErr e).humPct = c.humPct := rfl
@[simp] theorem Ccu.setErr_win  : (c.setErr e).win = c.win := rfl
@[simp] theorem Ccu.setErr_calv  : (c.setErr e).calv = c.calv := rfl
@[simp] theorem Ccu.setErr_rawv  : (c.setErr e).rawv = c.rawv := rfl
@[simp] theorem Ccu.setErr_tv  : (c.setErr e).tv = c.tv := rfl
@[simp] theorem Ccu.setErr_pv  : (c.setErr e).pv = c.pv := rfl
@[simp] theorem Ccu.setErr_hv  : (c.setErr e).hv = c.hv := rfl
@[simp] theorem Ccu.setErr_err  : (c.setErr e).err = e.code := rfl
@[simp] theorem Ccu.raise_coef  : (c.raise e).coef = c.coef := rfl
@[simp] theorem Ccu.raise_adc  : (c.raise e).adc = c.adc := rfl
@[simp] theorem Ccu.raise_tFine  : (c.raise e).tFine = c.tFine := rfl
@[simp] theorem Ccu.raise_tempC  : (c.raise e).tempC = c.tempC := rfl
@[simp] theorem Ccu.raise_tempF  : (c.raise e).tempF = c.tempF := rfl
@[simp] theorem Ccu.raise_pressPa  : (c.raise e).pressPa = c.pressPa := rfl
@[simp] theorem Ccu.raise_humPct  : (c.raise e).humPct = c.humPct := rfl
@[simp] theorem Ccu.raise_win  : (c.raise e).win = c.win := rfl
@[simp] theorem Ccu.raise_calv  : (c.raise e).calv = c.calv := rfl
@[simp] theorem Ccu.raise_rawv  : (c.raise e).rawv = c.rawv := rfl
@[simp] theorem Ccu.raise_tv  : (c.raise e).tv = c.tv := rfl
@[simp] theorem Ccu.raise_pv  : (c.raise e).pv = c.pv := rfl
@[simp] theorem Ccu.raise_hv  : (c.raise e).hv = c.hv := rfl
@[simp] theorem Ccu.raise_err  : (c.raise e).err = e.code := rfl
@[simp] theorem Ccu.clear_coef  : c.clear.coef = c.coef := rfl
@[simp] theorem Ccu.clear_adc  : c.clear.adc = c.adc := rfl
@[simp] theorem Ccu.clear_tFine  : c.clear.tFine = c.tFine := rfl
@[simp] theorem Ccu.clear_tempC  : c.clear.tempC = c.tempC := rfl
@[simp] theorem Ccu.clear_tempF  : c.clear.tempF = c.tempF := rfl
@[simp] theorem Ccu.clear_pressPa  : c.clear.pressPa = c.pressPa := rfl
@[simp] theorem Ccu.clear_humPct  : c.clear.humPct = c.humPct := rfl
@[simp] theorem Ccu.clear_win  : c.clear.win = c.win.clear := rfl
@[simp] theorem Ccu.clear_calv  : c.clear.calv = false := rfl
@[simp] theorem Ccu.clear_rawv  : c.clear.rawv = false := rfl
@[simp] theorem Ccu.clear_tv  : c.clear.tv = false := rfl
@[simp] theorem Ccu.clear_pv  : c.clear.pv = false := rfl
@[simp] theorem Ccu.clear_hv  : c.clear.hv = false := rfl
@[simp] theorem Ccu.clear_err  : c.clear.err = 0#3 := rfl
@[simp] theorem Ccu.loadCoefficients_coef : (c.loadCoefficients k).coef = k := rfl
@[simp] theorem Ccu.loadCoefficients_adc : (c.loadCoefficients k).adc = c.adc := rfl
@[simp] theorem Ccu.loadCoefficients_tFine : (c.loadCoefficients k).tFine = c.tFine := rfl
@[simp] theorem Ccu.loadCoefficients_tempC : (c.loadCoefficients k).tempC = c.tempC := rfl
@[simp] theorem Ccu.loadCoefficients_tempF : (c.loadCoefficients k).tempF = c.tempF := rfl
@[simp] theorem Ccu.loadCoefficients_pressPa : (c.loadCoefficients k).pressPa = c.pressPa := rfl
@[simp] theorem Ccu.loadCoefficients_humPct : (c.loadCoefficients k).humPct = c.humPct := rfl
@[simp] theorem Ccu.loadCoefficients_win : (c.loadCoefficients k).win = c.win := rfl
@[simp] theorem Ccu.loadCoefficients_calv : (c.loadCoefficients k).calv = true := rfl
@[simp] theorem Ccu.loadCoefficients_rawv : (c.loadCoefficients k).rawv = c.rawv := rfl
@[simp] theorem Ccu.loadCoefficients_tv : (c.loadCoefficients k).tv = c.tv := rfl
@[simp] theorem Ccu.loadCoefficients_pv : (c.loadCoefficients k).pv = c.pv := rfl
@[simp] theorem Ccu.loadCoefficients_hv : (c.loadCoefficients k).hv = c.hv := rfl
@[simp] theorem Ccu.loadCoefficients_err : (c.loadCoefficients k).err = 0#3 := rfl
@[simp] theorem Ccu.loadAdc_coef : (c.loadAdc r).coef = c.coef := rfl
@[simp] theorem Ccu.loadAdc_adc : (c.loadAdc r).adc = r := rfl
@[simp] theorem Ccu.loadAdc_tFine : (c.loadAdc r).tFine = c.tFine := rfl
@[simp] theorem Ccu.loadAdc_tempC : (c.loadAdc r).tempC = c.tempC := rfl
@[simp] theorem Ccu.loadAdc_tempF : (c.loadAdc r).tempF = c.tempF := rfl
@[simp] theorem Ccu.loadAdc_pressPa : (c.loadAdc r).pressPa = c.pressPa := rfl
@[simp] theorem Ccu.loadAdc_humPct : (c.loadAdc r).humPct = c.humPct := rfl
@[simp] theorem Ccu.loadAdc_win : (c.loadAdc r).win = c.win.consumeData := rfl
@[simp] theorem Ccu.loadAdc_calv : (c.loadAdc r).calv = c.calv := rfl
@[simp] theorem Ccu.loadAdc_rawv : (c.loadAdc r).rawv = true := rfl
@[simp] theorem Ccu.loadAdc_tv : (c.loadAdc r).tv = false := rfl
@[simp] theorem Ccu.loadAdc_pv : (c.loadAdc r).pv = false := rfl
@[simp] theorem Ccu.loadAdc_hv : (c.loadAdc r).hv = false := rfl
@[simp] theorem Ccu.loadAdc_err : (c.loadAdc r).err = 0#3 := rfl
@[simp] theorem Ccu.writeOutputs_coef : (c.writeOutputs o).coef = c.coef := rfl
@[simp] theorem Ccu.writeOutputs_adc : (c.writeOutputs o).adc = c.adc := rfl
@[simp] theorem Ccu.writeOutputs_tFine : (c.writeOutputs o).tFine = o.tFine := rfl
@[simp] theorem Ccu.writeOutputs_tempC : (c.writeOutputs o).tempC = o.tempC := rfl
@[simp] theorem Ccu.writeOutputs_tempF : (c.writeOutputs o).tempF = o.tempF := rfl
@[simp] theorem Ccu.writeOutputs_pressPa : (c.writeOutputs o).pressPa = o.press.getD c.pressPa := rfl
@[simp] theorem Ccu.writeOutputs_humPct : (c.writeOutputs o).humPct = o.humPct := rfl
@[simp] theorem Ccu.writeOutputs_win : (c.writeOutputs o).win = c.win := rfl
@[simp] theorem Ccu.writeOutputs_calv : (c.writeOutputs o).calv = c.calv := rfl
@[simp] theorem Ccu.writeOutputs_rawv : (c.writeOutputs o).rawv = c.rawv := rfl
@[simp] theorem Ccu.writeOutputs_tv : (c.writeOutputs o).tv = true := rfl
@[simp] theorem Ccu.writeOutputs_pv : (c.writeOutputs o).pv = o.press.isSome := rfl
@[simp] theorem Ccu.writeOutputs_hv : (c.writeOutputs o).hv = true := rfl
@[simp] theorem Ccu.writeOutputs_err : (c.writeOutputs o).err = (if o.press.isSome then ErrCode.ok else ErrCode.div0).code := rfl

end CcuUpdates

section WindowUpdates

variable (w : Windows) (x : Byte)

@[simp] theorem Windows.clear_a  : w.clear.a = w.a := rfl
@[simp] theorem Windows.clear_b  : w.clear.b = w.b := rfl
@[simp] theorem Windows.clear_d  : w.clear.d = w.d := rfl
@[simp] theorem Windows.clear_av  : w.clear.av = Vector.replicate 26 false := rfl
@[simp] theorem Windows.clear_bv  : w.clear.bv = Vector.replicate 7 false := rfl
@[simp] theorem Windows.clear_dv  : w.clear.dv = Vector.replicate 8 false := rfl
@[simp] theorem Windows.consumeData_a  : w.consumeData.a = w.a := rfl
@[simp] theorem Windows.consumeData_b  : w.consumeData.b = w.b := rfl
@[simp] theorem Windows.consumeData_d  : w.consumeData.d = w.d := rfl
@[simp] theorem Windows.consumeData_av  : w.consumeData.av = w.av := rfl
@[simp] theorem Windows.consumeData_bv  : w.consumeData.bv = w.bv := rfl
@[simp] theorem Windows.consumeData_dv  : w.consumeData.dv = Vector.replicate 8 false := rfl
@[simp] theorem Windows.writeA_a (k : Fin 26) : (w.writeA k x).a = w.a.set k.val x k.isLt := rfl
@[simp] theorem Windows.writeA_b (k : Fin 26) : (w.writeA k x).b = w.b := rfl
@[simp] theorem Windows.writeA_d (k : Fin 26) : (w.writeA k x).d = w.d := rfl
@[simp] theorem Windows.writeA_av (k : Fin 26) : (w.writeA k x).av = w.av.set k.val true k.isLt := rfl
@[simp] theorem Windows.writeA_bv (k : Fin 26) : (w.writeA k x).bv = w.bv := rfl
@[simp] theorem Windows.writeA_dv (k : Fin 26) : (w.writeA k x).dv = w.dv := rfl
@[simp] theorem Windows.writeB_a (k : Fin 7) : (w.writeB k x).a = w.a := rfl
@[simp] theorem Windows.writeB_b (k : Fin 7) : (w.writeB k x).b = w.b.set k.val x k.isLt := rfl
@[simp] theorem Windows.writeB_d (k : Fin 7) : (w.writeB k x).d = w.d := rfl
@[simp] theorem Windows.writeB_av (k : Fin 7) : (w.writeB k x).av = w.av := rfl
@[simp] theorem Windows.writeB_bv (k : Fin 7) : (w.writeB k x).bv = w.bv.set k.val true k.isLt := rfl
@[simp] theorem Windows.writeB_dv (k : Fin 7) : (w.writeB k x).dv = w.dv := rfl
@[simp] theorem Windows.writeD_a (k : Fin 8) : (w.writeD k x).a = w.a := rfl
@[simp] theorem Windows.writeD_b (k : Fin 8) : (w.writeD k x).b = w.b := rfl
@[simp] theorem Windows.writeD_d (k : Fin 8) : (w.writeD k x).d = w.d.set k.val x k.isLt := rfl
@[simp] theorem Windows.writeD_av (k : Fin 8) : (w.writeD k x).av = w.av := rfl
@[simp] theorem Windows.writeD_bv (k : Fin 8) : (w.writeD k x).bv = w.bv := rfl
@[simp] theorem Windows.writeD_dv (k : Fin 8) : (w.writeD k x).dv = w.dv.set k.val true k.isLt := rfl

end WindowUpdates

end Sys2Proof.Machine
end

