-- ==== Sys2Proof/Laws/Ops.lean ====
section
/-! SUPPORT. What each shared operation can do, said once: decoding, the port map, a fill of
the host script, a host read, an access, the step. -/

namespace Sys2Proof

/-- The decoder's inversion: a value is a command exactly if it is that command's opcode. -/
theorem decode_ok_iff (v : Byte) (i : Instr) : decode v = .ok i ↔ encode i = v := by
  cases i <;> revert v <;> decide +kernel

/-- What the decoder refuses, it refuses by the value's name. -/
theorem decode_error_eq (v w : Byte) (h : decode v = .error (.reserved w)) : w = v := by
  unfold decode at h; split at h <;> simp_all

/-- A value that is no opcode is refused. -/
theorem decode_reserved (v : Byte) (h : ∀ i, encode i ≠ v) : decode v = .error (.reserved v) := by
  unfold decode
  split
  case h_1 row hrow =>
    have : decode v = .ok row.instr := by unfold decode; rw [hrow]
    exact absurd ((decode_ok_iff v row.instr).1 this) (h _)
  · rfl

namespace Machine

theorem portMap_addr (r : Reg) : portMap r.addr = some r := by
  cases r with
  | a k => revert k; decide +kernel
  | b k => revert k; decide +kernel
  | d k => revert k; decide +kernel
  | coef c => cases c <;> rfl
  | _ => rfl

theorem addr_of_portMap (addr : BitVec 8) : ∀ r ∈ portMap addr, r.addr = addr := by
  revert addr; decide +kernel

/-- Everything a fill of a window stands for: one write for each byte, to ascending addresses. -/
theorem writesFrom_eq (start : Nat) (bytes : List Byte) :
    writesFrom start bytes = bytes.mapIdx fun k b => .write (BitVec.ofNat 8 (start + k)) b.toNat := by
  induction bytes generalizing start with
  | nil => rfl
  | cons b bytes ih => simp [writesFrom, ih, List.mapIdx_cons, Nat.add_assoc, Nat.add_comm 1]

/-- A register's value is held under its valid condition. -/
@[simp] theorem heldIf_eq_some (b : Bool) (v x : PortValue) : heldIf b v = some x ↔ b = true ∧ v = x := by
  cases b <;> simp [heldIf]

@[simp] theorem heldIf_isSome (b : Bool) (v : PortValue) : (heldIf b v).isSome = b := by
  cases b <;> rfl

/-- Everything a host read can do: the CCU and the accesses to come stay, one value is returned, and it is the
register's where one is held. -/
theorem memRead_spec (addr : BitVec 8) (s : State) :
    (memRead addr s).ccu = s.ccu ∧ (memRead addr s).host.pending = s.host.pending ∧
    ∃ v, (memRead addr s).host.replies = v :: s.host.replies ∧
      ∀ r ∈ portMap addr, ∀ x ∈ s.ccu.value r, v = x := by
  unfold memRead
  split
  case h_1 r hr =>
    split
    case h_1 v hv => refine ⟨rfl, rfl, v, rfl, ?_⟩; intro r' h' x hx; simp_all
    case h_2 hv => refine ⟨rfl, rfl, _, rfl, ?_⟩; intro r' h' x hx; simp_all
  case h_2 hr => refine ⟨rfl, rfl, _, rfl, ?_⟩; intro r' h' x hx; simp_all

/-- Everything an access can do. -/
theorem perform_cases {x : Access} {s t : State} (h : perform x s = .next t) :
    (∃ addr, x = .read addr ∧ t = memRead addr s) ∨
    (x = .reset ∧ t = s.withCcu s.ccu.clear) ∨
    (∃ addr value r, x = .write addr value ∧ portMap addr = some r ∧ r ≠ .cmd ∧
      t = s.withCcu (s.ccu.writeReg (lowByte value) r)) ∨
    (∃ addr value, x = .write addr value ∧ portMap addr = none ∧ t = s) ∨
    (x.Issues .ldcal ∧ t = s.withCcu s.ccu.loadCalibration) ∨
    (x.Issues .ldraw ∧ t = s.withCcu s.ccu.loadReading) ∨
    (x.Issues .comp ∧ t = s.withCcu (s.ccu.compensate Binary64.arith)) ∨
    (x.Issues .clr ∧ t = s.withCcu s.ccu.clear) ∨
    (x.WritesTo .cmd ∧ (∀ i, ¬ x.Issues i) ∧ t = s.withCcu (s.ccu.raise .illCmd)) := by
  cases x with
  | read addr => left; exact ⟨addr, rfl, by simpa [perform] using h.symm⟩
  | reset => right; left; exact ⟨rfl, by simpa [perform, resetEvent] using h.symm⟩
  | write addr value =>
    simp only [perform, memWrite] at h
    split at h
    case h_1 hp =>
      simp only [command] at h
      split at h
      case h_1 i hi =>
        have hx : (Access.write addr value).Issues i := ⟨addr, value, rfl, hp, hi⟩
        cases i <;> simp only [exec, execLdcal, execLdraw, execComp, execClr, Host.Outcome.next.injEq] at h <;>
          simp [hx, ← h]
      case h_2 w hw =>
        simp only [execIllegal, Host.Outcome.next.injEq] at h
        iterate 8 right
        refine ⟨⟨addr, value, rfl, hp⟩, ?_, h.symm⟩
        rintro i ⟨a, v, hx, -, hi⟩
        cases hx
        simp [hw] at hi
    case h_2 r hr hp =>
      right; right; left
      exact ⟨addr, value, r, rfl, hp, fun h => hr h, by simpa using h.symm⟩
    case h_3 hp => right; right; right; left; exact ⟨addr, value, rfl, hp, by simpa using h.symm⟩

/-- No access stops the machine. -/
theorem perform_next (x : Access) (s : State) : ∃ t, perform x s = .next t := by
  cases h : perform x s with
  | next t => exact ⟨t, rfl⟩
  | fault r => cases r
  | refused r =>
    exfalso
    cases x <;> simp only [perform, memWrite, command] at h
    · split at h
      · split at h
        · rename_i i _; cases i <;> simp [exec, execLdcal, execLdraw, execComp, execClr] at h
        · simp [execIllegal] at h
      all_goals simp at h
    all_goals simp at h

/-- The step takes the oldest access that is still to come. -/
theorem step_of_pending {s : State} {x : Access} {rest : List Access} (h : s.host.pending = x :: rest) :
    step s = perform x (s.withPending rest) := by
  simp [step, transition, h]

/-- With no access to come the step changes nothing. -/
theorem step_of_idle {s : State} (h : s.host.pending = []) : step s = .next s := by
  simp [step, transition, h]

/-- Everything a step can do: it waits, or performs the oldest access. -/
theorem step_cases {s t : State} (h : step s = .next t) :
    (s.host.pending = [] ∧ t = s) ∨
    ∃ x rest, s.host.pending = x :: rest ∧ perform x (s.withPending rest) = .next t := by
  cases hp : s.host.pending with
  | nil => left; exact ⟨rfl, by simpa [step_of_idle hp] using h.symm⟩
  | cons x rest => right; exact ⟨x, rest, rfl, by rw [← step_of_pending hp]; exact h⟩

end Machine
end Sys2Proof
end

