-- ==== Sys2Proof/Laws/Commands.lean ====
section
/-! SUPPORT. What each command can do to the CCU, case by case, and the byte functions as bit patterns. -/

namespace Sys2Proof.Machine

theorem calibrationComplete_iff (w : Windows) :
    w.calibrationComplete = true ↔ (∀ k : Fin 26, k ≠ 24 → w.av[k] = true) ∧ ∀ k : Fin 7, w.bv[k] = true := by
  simp only [Windows.calibrationComplete, Bool.and_eq_true, decide_eq_true_eq]

theorem dataComplete_iff (w : Windows) : w.dataComplete = true ↔ ∀ k : Fin 8, w.dv[k] = true := by
  simp only [Windows.dataComplete, decide_eq_true_eq]

/-- Everything LDCAL can do to the CCU. -/
theorem loadCalibration_cases (c : Ccu) :
    (c.calv = true ∧ c.loadCalibration = c.raise .locked) ∨
    (c.calv = false ∧ c.win.calibrationComplete = false ∧ c.loadCalibration = c.raise .short) ∨
    (c.calv = false ∧ c.win.calibrationComplete = true ∧
      c.loadCalibration = c.loadCoefficients (decodeCoefficients c.win)) := by
  cases h : c.calv <;> cases h' : c.win.calibrationComplete <;> simp [Ccu.loadCalibration, h, h']

/-- Everything LDRAW can do to the CCU. -/
theorem loadReading_cases (c : Ccu) :
    (c.win.dataComplete = false ∧ c.loadReading = c.raise .short) ∨
    (c.win.dataComplete = true ∧ c.loadReading = c.loadAdc (unpackReading c.win)) := by
  cases h : c.win.dataComplete <;> simp [Ccu.loadReading, h]

/-- Everything COMP can do to the CCU. -/
theorem compensate_cases (fp : Config.Arith) (c : Ccu) :
    (c.calv = false ∧ c.compensate fp = c.raise .noCal) ∨
    (c.calv = true ∧ c.rawv = false ∧ c.compensate fp = c.raise .noRaw) ∨
    (c.calv = true ∧ c.rawv = true ∧ c.compensate fp = c.writeOutputs (compensation fp c.coef c.adc)) := by
  cases h : c.calv <;> cases h' : c.rawv <;> simp [Ccu.compensate, h, h']

/-- Whatever it computes, COMP writes outputs or raises an error: the outputs as a variable, for frames. -/
theorem compensate_writes (fp : Config.Arith) (c : Ccu) :
    (∃ e : ErrCode, c.compensate fp = c.raise e) ∨ ∃ o : Outputs, c.compensate fp = c.writeOutputs o := by
  rcases compensate_cases fp c with ⟨_, h⟩ | ⟨_, _, h⟩ | ⟨_, _, h⟩
  · exact .inl ⟨_, h⟩
  · exact .inl ⟨_, h⟩
  · exact .inr ⟨_, h⟩

/-! The outputs, one by one. -/

theorem compensation_tFine (fp : Config.Arith) (k : CoefFile) (r : AdcFile) :
    (compensation fp k r).tFine = BitVec.ofInt 32 (stageTOf fp k r).2 := rfl

theorem compensation_tempC (fp : Config.Arith) (k : CoefFile) (r : AdcFile) :
    (compensation fp k r).tempC = temperatureC fp k r := rfl

theorem compensation_tempF (fp : Config.Arith) (k : CoefFile) (r : AdcFile) :
    (compensation fp k r).tempF = temperatureF fp k r := rfl

theorem compensation_humPct (fp : Config.Arith) (k : CoefFile) (r : AdcFile) :
    (compensation fp k r).humPct = humidity fp k r := rfl

theorem compensation_press_of_zero (fp : Config.Arith) (k : CoefFile) (r : AdcFile)
    (h : denominatorIsZero fp k r = true) : (compensation fp k r).press = none := by
  simp [compensation, h]

theorem compensation_press_of_nonzero (fp : Config.Arith) (k : CoefFile) (r : AdcFile)
    (h : denominatorIsZero fp k r = false) : (compensation fp k r).press = some (pressure fp k r) := by
  simp [compensation, h]

/-- PV after COMP: the denominator is not zero. -/
theorem compensation_press_isSome (fp : Config.Arith) (k : CoefFile) (r : AdcFile) :
    (compensation fp k r).press.isSome = !denominatorIsZero fp k r := by
  cases h : denominatorIsZero fp k r <;> simp [compensation, h]

/-- A write to a register other than CMD changes nothing but the windows. -/
theorem writeReg_eq (c : Ccu) (v : Byte) (r : Reg) : c.writeReg v r = { c with win := (c.writeReg v r).win } := by
  cases r <;> rfl

/-! A write to a register other than CMD, byte by byte: only the byte it names changes, and its valid bit ends at 1. -/

theorem writeReg_a (c : Ccu) (v : Byte) (r : Reg) (k : Fin 26) :
    (r = .a k ∧ (c.writeReg v r).win.av[k] = true) ∨
    ((c.writeReg v r).win.a[k] = c.win.a[k] ∧ (c.writeReg v r).win.av[k] = c.win.av[k]) := by
  cases r with
  | a j =>
    by_cases h : j = k
    · subst h; left; simp [Ccu.writeReg]
    · have h' : j.val ≠ k.val := fun e => h (Fin.ext e)
      right; simp [Ccu.writeReg, Vector.getElem_set_ne, h']
  | _ => right; exact ⟨rfl, rfl⟩

theorem writeReg_b (c : Ccu) (v : Byte) (r : Reg) (k : Fin 7) :
    (r = .b k ∧ (c.writeReg v r).win.bv[k] = true) ∨
    ((c.writeReg v r).win.b[k] = c.win.b[k] ∧ (c.writeReg v r).win.bv[k] = c.win.bv[k]) := by
  cases r with
  | b j =>
    by_cases h : j = k
    · subst h; left; simp [Ccu.writeReg]
    · have h' : j.val ≠ k.val := fun e => h (Fin.ext e)
      right; simp [Ccu.writeReg, Vector.getElem_set_ne, h']
  | _ => right; exact ⟨rfl, rfl⟩

theorem writeReg_d (c : Ccu) (v : Byte) (r : Reg) (k : Fin 8) :
    (r = .d k ∧ (c.writeReg v r).win.dv[k] = true) ∨
    ((c.writeReg v r).win.d[k] = c.win.d[k] ∧ (c.writeReg v r).win.dv[k] = c.win.dv[k]) := by
  cases r with
  | d j =>
    by_cases h : j = k
    · subst h; left; simp [Ccu.writeReg]
    · have h' : j.val ≠ k.val := fun e => h (Fin.ext e)
      right; simp [Ccu.writeReg, Vector.getElem_set_ne, h']
  | _ => right; exact ⟨rfl, rfl⟩

/-! The byte functions as bit patterns. -/

theorem u16le_eq (lo hi : Byte) : u16le lo hi = (hi ++ lo : BitVec 16).toNat := by
  have := lo.isLt
  simp only [u16le, BitVec.toNat_append, Nat.shiftLeft_eq]
  rw [← Nat.shiftLeft_eq, ← Nat.shiftLeft_add_eq_or_of_lt this, Nat.shiftLeft_eq]; omega

theorem u16le_lt (lo hi : Byte) : u16le lo hi < 65536 := by
  have := lo.isLt; have := hi.isLt; unfold u16le; omega

theorem s16le_eq (lo hi : Byte) : s16le lo hi = (hi ++ lo : BitVec 16).toInt := by
  have := u16le_lt lo hi
  rw [BitVec.toInt_eq_toNat_cond, ← u16le_eq]
  unfold s16le; split <;> split <;> omega

theorem s8_eq (b : Byte) : s8 b = b.toInt := by
  have := b.isLt
  rw [BitVec.toInt_eq_toNat_cond]
  unfold s8; split <;> split <;> omega

theorem lowNibble_toNat (b : Byte) : (b &&& 0xF#8).toNat = b.toNat % 16 := by
  have : (0xF#8).toNat = 2 ^ 4 - 1 := rfl
  rw [BitVec.toNat_and, this, Nat.and_two_pow_sub_one_eq_mod]

theorem highNibble_toNat (b : Byte) : (b >>> 4).toNat = b.toNat / 16 := by
  simp [BitVec.toNat_ushiftRight, Nat.shiftRight_eq_div_pow]

theorem h4_eq (b3 b4 : Byte) : h4 b3 b4 = (16 * b3.toNat + b4.toNat % 16 : Nat) := by
  have := b3.isLt
  unfold h4 extend16; rw [lowNibble_toNat]; split <;> omega

theorem h5_eq (b4 b5 : Byte) : h5 b4 b5 = (b4.toNat / 16 + 16 * b5.toNat : Nat) := by
  have := b4.isLt; have := b5.isLt
  unfold h5 extend16; rw [highNibble_toNat]; split <;> omega

theorem adc20_eq (msb lsb xlsb : Byte) :
    adc20 msb lsb xlsb = 4096 * msb.toNat + 16 * lsb.toNat + xlsb.toNat / 16 := by
  unfold adc20; rw [highNibble_toNat]

/-- An integer in range is stored in 16 bits and read back unchanged. -/
theorem toInt_ofInt16 (i : Int) (h : -32768 ≤ i) (h' : i ≤ 32767) : (BitVec.ofInt 16 i).toInt = i := by
  rw [BitVec.toInt_ofInt, Int.bmod_eq_of_le] <;> omega

theorem s16le_range (lo hi : Byte) : -32768 ≤ s16le lo hi ∧ s16le lo hi ≤ 32767 := by
  have := u16le_lt lo hi; unfold s16le; split <;> omega

end Sys2Proof.Machine
end

