-- ==== Sys2Proof/Laws/Float.lean ====
section
/-! SUPPORT. The laws of binary64: the operations of `arith` by name, the fields of a value, what a rounding does
(it takes a nearest value, and of two the even one), and each operation on finite operands as one rounding. -/

namespace Sys2Proof.Binary64

@[simp] theorem arith_fadd : arith.fadd = fadd := by unfold arith; rfl
@[simp] theorem arith_fsub : arith.fsub = fsub := by unfold arith; rfl
@[simp] theorem arith_fmul : arith.fmul = fmul := by unfold arith; rfl
@[simp] theorem arith_fdiv : arith.fdiv = fdiv := by unfold arith; rfl
@[simp] theorem arith_fofint : arith.fofint = fofint := by unfold arith; rfl
@[simp] theorem arith_flit : arith.flit = flit := by unfold arith; rfl
@[simp] theorem arith_ffloor : arith.ffloor = ffloor := by unfold arith; rfl
@[simp] theorem arith_feq : arith.feq = feq := by unfold arith; rfl
@[simp] theorem arith_flt : arith.flt = flt := by unfold arith; rfl
@[simp] theorem arith_fgt : arith.fgt = fgt := by unfold arith; rfl


theorem pack_toNat (neg : Bool) (b : Nat) (h : b < 2 ^ 63) :
    (pack neg b).toNat = (if neg then 2 ^ 63 else 0) + b := by
  unfold pack
  rw [BitVec.toNat_ofNat, Nat.mod_eq_of_lt]
  cases neg <;> simp <;> omega

@[simp] theorem expField_pack (neg : Bool) (b : Nat) (h : b < 2 ^ 63) : expField (pack neg b) = b / 2 ^ 52 := by
  unfold expField; rw [pack_toNat neg b h]; cases neg <;> simp <;> omega

@[simp] theorem fracField_pack (neg : Bool) (b : Nat) (h : b < 2 ^ 63) : fracField (pack neg b) = b % 2 ^ 52 := by
  unfold fracField; rw [pack_toNat neg b h]; cases neg <;> simp <;> omega

@[simp] theorem sign_pack (neg : Bool) (b : Nat) (h : b < 2 ^ 63) : sign (pack neg b) = neg := by
  unfold sign; rw [BitVec.msb_eq_decide, pack_toNat neg b h]; cases neg <;> simp <;> omega

theorem infBits_eq : infBits = 0x7FF0000000000000 := by decide

theorem isFinite_pack (neg : Bool) (b : Nat) (h : b < infBits) : isFinite (pack neg b) = true := by
  rw [infBits_eq] at h
  unfold isFinite; rw [expField_pack neg b (by omega)]; simp; omega

/-- A significand of at most 53 bits shifted by an exponent: the bits and the magnitude. -/
theorem mag_pack (neg : Bool) (s q : Nat) (hq : q ≤ 2 ^ 53) (hs : s = 0 ∨ 2 ^ 52 ≤ q)
    (hb : 2 ^ 52 * s + q < infBits) : mag (pack neg (2 ^ 52 * s + q)) = q * 2 ^ s := by
  rw [infBits_eq] at hb
  unfold mag
  rw [expField_pack neg _ (by omega), fracField_pack neg _ (by omega)]
  by_cases h1 : q < 2 ^ 52
  · have hs0 : s = 0 := by omega
    subst hs0
    have : (2 ^ 52 * 0 + q) / 2 ^ 52 = 0 := by omega
    simp only [this, if_true]; simp; omega
  · by_cases h2 : q = 2 ^ 53
    · have e : (2 ^ 52 * s + q) / 2 ^ 52 = s + 2 := by omega
      have f : (2 ^ 52 * s + q) % 2 ^ 52 = 0 := by omega
      rw [e, f, if_neg (by omega)]
      have : s + 2 - 1 = s + 1 := by omega
      rw [this, h2, pow_succ]; ring
    · have e : (2 ^ 52 * s + q) / 2 ^ 52 = s + 1 := by omega
      have f : (2 ^ 52 * s + q) % 2 ^ 52 = q - 2 ^ 52 := by omega
      rw [e, f, if_neg (by omega)]
      have : s + 1 - 1 = s := by omega
      rw [this, show 2 ^ 52 + (q - 2 ^ 52) = q by omega]

/-- Every finite magnitude is a significand of at most 53 bits shifted by an exponent. -/
theorem mag_form (a : F64) : ∃ k t : Nat, mag a = k * 2 ^ t ∧ k < 2 ^ 53 := by
  unfold mag
  have : fracField a < 2 ^ 52 := Nat.mod_lt _ (by decide)
  split
  · exact ⟨fracField a, 0, by simp, by omega⟩
  · exact ⟨2 ^ 52 + fracField a, expField a - 1, rfl, by omega⟩

theorem units_natAbs (a : F64) : (units a).natAbs = mag a := by
  unfold units; split <;> simp

theorem maxUnits_lt : maxUnits < 2 ^ 2098 := by
  unfold maxUnits
  have : (2 : Nat) ^ 2098 = 2 ^ 53 * 2 ^ 2045 := by rw [← pow_add]
  rw [this]
  have hx : 0 < 2 ^ 2045 := Nat.pow_pos (by decide)
  generalize 2 ^ 2045 = x at hx
  omega

/-- The result of a rounding: a significand `q` shifted by `s`, and how it was chosen. -/
theorem roundUnits_form (n d : Nat) (hd : 0 < d) :
    ∃ s q : Nat, roundUnits n d = 2 ^ 52 * s + q ∧ q ≤ 2 ^ 53 ∧ (s = 0 ∨ 2 ^ 52 ≤ q) ∧
      ∃ p r : Nat, n = p * (d * 2 ^ s) + r ∧ r < d * 2 ^ s ∧ (s = 0 ∨ 2 ^ 52 ≤ p) ∧ p < 2 ^ 53 ∧
        q = (if d * 2 ^ s < 2 * r ∨ (2 * r = d * 2 ^ s ∧ p % 2 = 1) then p + 1 else p) := by
  have hstep : 0 < d * 2 ^ (Nat.log2 (n / d) - 52) := Nat.mul_pos hd (Nat.pow_pos (by decide))
  have hdiv : n / (d * 2 ^ (Nat.log2 (n / d) - 52)) = n / d / 2 ^ (Nat.log2 (n / d) - 52) :=
    (Nat.div_div_eq_div_mul _ _ _).symm
  have hlt : n / d / 2 ^ (Nat.log2 (n / d) - 52) < 2 ^ 53 := by
    rw [Nat.div_lt_iff_lt_mul (Nat.pow_pos (by decide)), ← pow_add]
    refine lt_of_lt_of_le Nat.lt_log2_self (Nat.pow_le_pow_right (by decide) (by omega))
  have hge : Nat.log2 (n / d) - 52 = 0 ∨ 2 ^ 52 ≤ n / d / 2 ^ (Nat.log2 (n / d) - 52) := by
    by_cases h : Nat.log2 (n / d) - 52 = 0
    · exact .inl h
    · right
      have h0 : n / d ≠ 0 := by intro h0; rw [h0] at h; simp at h
      rw [Nat.le_div_iff_mul_le (Nat.pow_pos (by decide)), ← pow_add]
      refine le_trans (Nat.pow_le_pow_right (by decide) ?_) (Nat.log2_self_le h0)
      omega
  refine ⟨Nat.log2 (n / d) - 52, _, rfl, ?_, ?_, n / (d * 2 ^ (Nat.log2 (n / d) - 52)),
    n % (d * 2 ^ (Nat.log2 (n / d) - 52)), ?_, Nat.mod_lt _ hstep, ?_, ?_, rfl⟩
  · rw [hdiv]; split <;> omega
  · rw [hdiv]; rcases hge with h | h
    · exact .inl h
    · right; split <;> omega
  · rw [Nat.mul_comm]; exact (Nat.div_add_mod _ _).symm
  · rw [hdiv]; exact hge
  · rw [hdiv]; exact hlt

/-- Below the overflow threshold the rounded value is finite. -/
theorem roundUnits_lt (n d : Nat) (hd : 0 < d) (hn : n ≤ d * maxUnits) : roundUnits n d < infBits := by
  obtain ⟨s, q, he, hq, hs, p, r, hnp, hr, hp, hp53, hqd⟩ := roundUnits_form n d hd
  rw [he, infBits_eq]
  by_cases h : s < 2045
  · omega
  · have hpm : p * 2 ^ s ≤ maxUnits := by
      have h1 : d * (p * 2 ^ s) ≤ d * maxUnits := by
        calc d * (p * 2 ^ s) = p * (d * 2 ^ s) := by ring
          _ ≤ n := by omega
          _ ≤ _ := hn
      exact Nat.le_of_mul_le_mul_left h1 hd
    have hp' : 2 ^ 52 ≤ p := by omega
    have h45 : s = 2045 := by
      by_contra hne
      have h46 : 2046 ≤ s := by omega
      have : 2 ^ 2098 ≤ p * 2 ^ s := by
        calc (2 : Nat) ^ 2098 = 2 ^ 52 * 2 ^ 2046 := by rw [← pow_add]
          _ ≤ p * 2 ^ s := Nat.mul_le_mul hp' (Nat.pow_le_pow_right (by decide) h46)
      have := maxUnits_lt
      omega
    subst h45
    have hpm' : p ≤ 2 ^ 53 - 1 := by omega
    by_cases hpe : p = 2 ^ 53 - 1
    · have hr0 : r = 0 := by
        have : n ≤ p * (d * 2 ^ 2045) := by
          calc n ≤ d * maxUnits := hn
            _ = p * (d * 2 ^ 2045) := by rw [hpe]; unfold maxUnits; ring
        omega
      have : q = p := by
        rw [hqd, hr0]; simp
        intro h; exact absurd h (by
          have := Nat.pow_pos (n := 2045) (show 0 < 2 by decide)
          have := Nat.mul_pos hd this
          omega)
      omega
    · have : q ≤ p + 1 := by rw [hqd]; split <;> omega
      omega

/-- The core of rounding: no significand of at most 53 bits, shifted, is nearer; on a tie with one the chosen is even. -/
theorem nearest_core {n d s q p r : Nat} (hd : 0 < d) (hn : n = p * (d * 2 ^ s) + r) (hr : r < d * 2 ^ s)
    (hp : s = 0 ∨ 2 ^ 52 ≤ p)
    (hq : q = (if d * 2 ^ s < 2 * r ∨ (2 * r = d * 2 ^ s ∧ p % 2 = 1) then p + 1 else p))
    (k t : Nat) (hk : k < 2 ^ 53) :
    ((n : Int) - d * (q * 2 ^ s : Nat)).natAbs ≤ ((n : Int) - d * (k * 2 ^ t : Nat)).natAbs ∧
    (k * 2 ^ t ≠ q * 2 ^ s → ((n : Int) - d * (q * 2 ^ s : Nat)).natAbs = ((n : Int) - d * (k * 2 ^ t : Nat)).natAbs →
      q % 2 = 0) := by
  have e1 : (d : Int) * (q * 2 ^ s : Nat) = q * (d * 2 ^ s : Nat) := by push_cast; ring
  by_cases hst : s ≤ t
  · obtain ⟨u, rfl⟩ := Nat.exists_eq_add_of_le hst
    have e2 : (d : Int) * (k * 2 ^ (s + u) : Nat) = (k * 2 ^ u : Nat) * (d * 2 ^ s : Nat) := by push_cast; ring
    have e3 : (k * 2 ^ (s + u) ≠ q * 2 ^ s) → k * 2 ^ u ≠ q := by
      intro h h'; apply h; rw [← h']; ring
    rw [e1, e2]
    generalize k * 2 ^ u = j at *
    generalize hS : d * 2 ^ s = S at *
    have hSp : 0 < S := by omega
    subst hn
    have a1 : ((p * S + r : Nat) : Int) - q * (S : Int) = (p - q) * S + r := by push_cast; ring
    have a2 : ((p * S + r : Nat) : Int) - j * (S : Int) = (p - j) * S + r := by push_cast; ring
    rw [a1, a2]
    have key : (j = p ∧ ((p : Int) - j) * S = 0) ∨ (j = p + 1 ∧ ((p : Int) - j) * S = -S) ∨
        (j + 1 ≤ p ∧ (S : Int) ≤ ((p : Int) - j) * S) ∨ (p + 2 ≤ j ∧ ((p : Int) - j) * S ≤ -2 * S) := by
      rcases lt_trichotomy j p with h | h | h
      · right; right; left; refine ⟨h, ?_⟩
        have : (1 : Int) ≤ p - j := by omega
        nlinarith
      · left; exact ⟨h, by rw [h]; simp⟩
      · by_cases h' : j = p + 1
        · right; left; exact ⟨h', by rw [h']; push_cast; ring⟩
        · right; right; right; refine ⟨by omega, ?_⟩
          have : (p : Int) - j ≤ -2 := by omega
          nlinarith
    by_cases hc : S < 2 * r ∨ (2 * r = S ∧ p % 2 = 1)
    · rw [if_pos hc] at hq
      have b : ((p : Int) - q) * S = -S := by rw [hq]; push_cast; ring
      rw [b]
      refine ⟨by omega, fun hne heq => ?_⟩
      have := e3 hne
      rcases hc with hc | hc <;> omega
    · rw [if_neg hc] at hq
      have b : ((p : Int) - q) * S = 0 := by rw [hq]; simp
      rw [b]
      refine ⟨by omega, fun hne heq => ?_⟩
      have := e3 hne
      omega
  · have hp' : 2 ^ 52 ≤ p := by omega
    have hM : k * 2 ^ t < p * 2 ^ s := by
      have : 2 ^ s = 2 ^ (s - t - 1) * 2 * 2 ^ t := by rw [← pow_succ, ← pow_add]; congr 1; omega
      have h1 : 1 ≤ 2 ^ (s - t - 1) := Nat.one_le_two_pow
      calc k * 2 ^ t < 2 ^ 53 * 2 ^ t := Nat.mul_lt_mul_of_pos_right hk (Nat.pow_pos (by decide))
        _ = 2 ^ 52 * (1 * 2 * 2 ^ t) := by ring
        _ ≤ p * (2 ^ (s - t - 1) * 2 * 2 ^ t) := by gcongr
        _ = p * 2 ^ s := by rw [this]
    have hdM : (d : Int) * (k * 2 ^ t : Nat) < p * (d * 2 ^ s : Nat) := by
      have : d * (k * 2 ^ t) < d * (p * 2 ^ s) := Nat.mul_lt_mul_of_pos_left hM hd
      have e : d * (p * 2 ^ s) = p * (d * 2 ^ s) := by ring
      rw [e] at this; exact_mod_cast this
    rw [e1]
    generalize (d : Int) * (k * 2 ^ t : Nat) = M at *
    generalize hS : d * 2 ^ s = S at *
    subst hn
    have a1 : ((p * S + r : Nat) : Int) - q * (S : Int) = (p - q) * S + r := by push_cast; ring
    have a2 : ((p * S + r : Nat) : Int) - M = (p * S - M) + r := by push_cast; ring
    rw [a1, a2]
    by_cases hc : S < 2 * r ∨ (2 * r = S ∧ p % 2 = 1)
    · rw [if_pos hc] at hq
      have b : ((p : Int) - q) * S = -S := by rw [hq]; push_cast; ring
      rw [b]
      constructor <;> omega
    · rw [if_neg hc] at hq
      have b : ((p : Int) - q) * S = 0 := by rw [hq]; simp
      rw [b]
      constructor <;> omega

/-- What `round` gives below the overflow threshold. -/
theorem round_form (neg : Bool) (n d : Nat) (hd : 0 < d) (hn : n ≤ d * maxUnits) :
    isFinite (round neg n d) = true ∧ sign (round neg n d) = neg ∧
    ∀ k t : Nat, k < 2 ^ 53 →
      ((n : Int) - d * mag (round neg n d)).natAbs ≤ ((n : Int) - d * (k * 2 ^ t : Nat)).natAbs ∧
      (k * 2 ^ t ≠ mag (round neg n d) →
        ((n : Int) - d * mag (round neg n d)).natAbs = ((n : Int) - d * (k * 2 ^ t : Nat)).natAbs →
        (round neg n d).toNat % 2 = 0) := by
  have hlt := roundUnits_lt n d hd hn
  obtain ⟨s, q, he, hq, hs, p, r, hnp, hr, hp, hp53, hqd⟩ := roundUnits_form n d hd
  have hR : round neg n d = pack neg (2 ^ 52 * s + q) := by
    unfold round; rw [Nat.min_eq_left (Nat.le_of_lt hlt), he]
  rw [he] at hlt
  have hb := hlt; rw [infBits_eq] at hb
  rw [hR, mag_pack neg s q hq hs hlt]
  refine ⟨isFinite_pack neg _ hlt, sign_pack neg _ (by omega), fun k t hk => ?_⟩
  obtain ⟨c1, c2⟩ := nearest_core hd hnp hr hp hqd k t hk
  refine ⟨c1, fun h1 h2 => ?_⟩
  have := c2 h1 h2
  rw [pack_toNat neg _ (by omega)]
  cases neg <;> simp <;> omega

/-- Rounding is to the nearest finite value, ties to even. -/
theorem round_nearestEven (neg : Bool) (n d : Nat) (hd : 0 < d) (hn : n ≤ d * maxUnits) :
    NearestEven (if neg then -(n : Int) else (n : Int)) d (round neg n d) := by
  obtain ⟨hf, hsgn, hcore⟩ := round_form neg n d hd hn
  have hu : units (round neg n d) = (if neg then -1 else 1) * (mag (round neg n d) : Int) := by
    unfold units; rw [hsgn]; cases neg <;> simp
  have hnn : (if neg then -(n : Int) else (n : Int)) = (if neg then -1 else 1) * n := by cases neg <;> simp
  have hσ : ((if neg then -1 else 1 : Int)) * (if neg then -1 else 1) = 1 := by cases neg <;> simp
  have hσa : ((if neg then -1 else 1 : Int)).natAbs = 1 := by cases neg <;> simp
  rw [hnn]
  generalize (if neg then -1 else 1 : Int) = σ at *
  obtain ⟨z1, z2⟩ := hcore 0 0 (by decide)
  have hr : (σ * n - d * units (round neg n d)).natAbs = ((n : Int) - d * mag (round neg n d)).natAbs := by
    rw [hu, show σ * n - d * (σ * (mag (round neg n d) : Int)) = σ * (n - d * mag (round neg n d)) by ring,
      Int.natAbs_mul, hσa, one_mul]
  have hx : ∀ x : F64, (σ * n - d * units x).natAbs = ((n : Int) - d * (σ * units x)).natAbs := by
    intro x
    have e : σ * n - d * units x = σ * (n - d * (σ * units x)) := by
      linear_combination (d * units x) * hσ
    rw [e, Int.natAbs_mul, hσa, one_mul]
  have hinj : ∀ x : F64, σ * units x = mag (round neg n d) → units x = units (round neg n d) := by
    intro x h; rw [hu, ← h]; linear_combination (-units x) * hσ
  have hsx : ∀ x : F64, σ * units x = mag x ∨ σ * units x = -(mag x : Int) := by
    intro x
    have hx' : units x = mag x ∨ units x = -(mag x : Int) := by unfold units; split <;> simp
    have hs' : σ = 1 ∨ σ = -1 := by omega
    rcases hx' with h | h <;> rcases hs' with h' | h' <;> rw [h, h'] <;> simp
  refine ⟨hf, fun x _ => ?_, fun x _ hne => ?_⟩ <;> rw [hr, hx]
  · obtain ⟨k, t, hm, hk⟩ := mag_form x
    obtain ⟨c1, -⟩ := hcore k t hk
    rw [← hm] at c1
    rcases hsx x with h | h <;> rw [h]
    · exact c1
    · have : 0 ≤ (d : Int) * mag x := Int.mul_nonneg (Int.natCast_nonneg _) (Int.natCast_nonneg _)
      simp only [Nat.zero_mul, Nat.cast_zero, mul_zero] at z1
      rw [mul_neg]
      omega
  · obtain ⟨k, t, hm, hk⟩ := mag_form x
    obtain ⟨-, c2⟩ := hcore k t hk
    rw [← hm] at c2
    rcases hsx x with h | h <;> rw [h]
    · refine c2 fun h' => hne (hinj x ?_)
      rw [h, h']
    · intro heq
      have hp : 0 ≤ (d : Int) * mag x := Int.mul_nonneg (Int.natCast_nonneg _) (Int.natCast_nonneg _)
      simp only [Nat.zero_mul, Nat.cast_zero, mul_zero] at z1 z2
      rw [mul_neg] at heq
      have h0 : (d : Int) * mag x = 0 := by omega
      have hm0 : (mag x : Int) = 0 := by
        rcases Int.mul_eq_zero.mp h0 with h | h
        · omega
        · exact h
      refine z2 (fun h' => hne (hinj x ?_)) (by rw [heq, h0]; simp)
      rw [h, hm0, ← h']; simp

/-- A rounded result lies on the same side of every representable bound as the exact one (the upper side). -/
theorem mag_round_le (neg : Bool) (n d k t : Nat) (hd : 0 < d) (hk : k < 2 ^ 53) (hmax : k * 2 ^ t ≤ maxUnits)
    (hn : n ≤ d * (k * 2 ^ t)) : isFinite (round neg n d) = true ∧ mag (round neg n d) ≤ k * 2 ^ t := by
  obtain ⟨hf, -, hcore⟩ := round_form neg n d hd (hn.trans (Nat.mul_le_mul_left _ hmax))
  refine ⟨hf, ?_⟩
  have c := (hcore k t hk).1
  clear hmax
  by_contra h
  have hlt : d * (k * 2 ^ t) < d * mag (round neg n d) := Nat.mul_lt_mul_of_pos_left (Nat.lt_of_not_le h) hd
  have e1 : (d : Int) * (k * 2 ^ t : Nat) = ((d * (k * 2 ^ t) : Nat) : Int) := by push_cast; ring
  have e2 : (d : Int) * (mag (round neg n d) : Nat) = ((d * mag (round neg n d) : Nat) : Int) := by push_cast; ring
  rw [e1, e2] at c
  omega

/-- The same for a lower bound. -/
theorem le_mag_round (neg : Bool) (n d k t : Nat) (hd : 0 < d) (hk : k < 2 ^ 53) (hmax : n ≤ d * maxUnits)
    (hn : d * (k * 2 ^ t) ≤ n) : k * 2 ^ t ≤ mag (round neg n d) := by
  obtain ⟨hf, -, hcore⟩ := round_form neg n d hd hmax
  have c := (hcore k t hk).1
  clear hmax
  by_contra h
  have hlt : d * mag (round neg n d) < d * (k * 2 ^ t) := Nat.mul_lt_mul_of_pos_left (Nat.lt_of_not_le h) hd
  have e1 : (d : Int) * (k * 2 ^ t : Nat) = ((d * (k * 2 ^ t) : Nat) : Int) := by push_cast; ring
  have e2 : (d : Int) * (mag (round neg n d) : Nat) = ((d * mag (round neg n d) : Nat) : Int) := by push_cast; ring
  rw [e1, e2] at c
  omega

/-- A representable result is exact. -/
theorem mag_round_exact (neg : Bool) (n d k t : Nat) (hd : 0 < d) (hk : k < 2 ^ 53) (hmax : k * 2 ^ t ≤ maxUnits)
    (hn : n = d * (k * 2 ^ t)) :
    isFinite (round neg n d) = true ∧ sign (round neg n d) = neg ∧ mag (round neg n d) = k * 2 ^ t := by
  have h1 := mag_round_le neg n d k t hd hk hmax hn.le
  have hle : n ≤ d * maxUnits := by rw [hn]; exact Nat.mul_le_mul_left _ hmax
  have h2 := le_mag_round neg n d k t hd hk hle hn.ge
  exact ⟨h1.1, (round_form neg n d hd hle).2.1, le_antisymm h1.2 h2⟩

theorem isNan_of_finite {a : F64} (h : isFinite a = true) : isNan a = false := by
  unfold isFinite at h; unfold isNan; simp_all
theorem isInf_of_finite {a : F64} (h : isFinite a = true) : isInf a = false := by
  unfold isFinite at h; unfold isInf; simp_all

theorem negate_toNat (a : F64) : (negate a).toNat = if a.toNat < 2 ^ 63 then a.toNat + 2 ^ 63 else a.toNat - 2 ^ 63 := by
  unfold negate
  have h : a ^^^ 0x8000000000000000#64 = a + 0x8000000000000000#64 := by
    apply BitVec.eq_of_getLsbD_eq
    intro i hi
    rw [BitVec.getLsbD_xor, BitVec.getLsbD_add hi]
    by_cases h63 : i = 63
    · subst h63
      have : BitVec.carry 63 a 0x8000000000000000#64 false = false := by
        unfold BitVec.carry; simp; omega
      rw [this]; simp
    · have hb : (0x8000000000000000#64).getLsbD i = false := by
        have : ∀ j : Fin 64, j.val ≠ 63 → (0x8000000000000000#64).getLsbD j.val = false := by decide
        exact this ⟨i, hi⟩ h63
      have : BitVec.carry i a 0x8000000000000000#64 false = false := by
        unfold BitVec.carry
        have : (0x8000000000000000#64).toNat % 2 ^ i = 0 := by
          have e : (2 : Nat) ^ 63 = 2 ^ (63 - i) * 2 ^ i := by rw [← pow_add]; congr 1; omega
          rw [show (0x8000000000000000#64).toNat = 2 ^ 63 from rfl, e, Nat.mul_mod_left]
        rw [this]
        have := Nat.mod_lt a.toNat (Nat.two_pow_pos i)
        simp; omega
      rw [hb, this]; simp
  rw [h, BitVec.toNat_add]
  have := a.isLt
  simp
  split <;> omega

theorem units_negate (a : F64) : units (negate a) = -units a := by
  have hn := negate_toNat a
  have hl := a.isLt
  have he : expField (negate a) = expField a := by unfold expField; rw [hn]; split <;> omega
  have hf : fracField (negate a) = fracField a := by unfold fracField; rw [hn]; split <;> omega
  have hs : sign (negate a) = !sign a := by
    unfold sign; rw [BitVec.msb_eq_decide, BitVec.msb_eq_decide, hn]
    by_cases h : a.toNat < 2 ^ 63
    · rw [if_pos h, decide_eq_true (by omega), decide_eq_false (by omega)]; rfl
    · rw [if_neg h, decide_eq_false (by omega), decide_eq_true (by omega)]; rfl
  unfold units mag
  rw [he, hf, hs]
  cases sign a <;> simp

theorem isFinite_negate (a : F64) : isFinite (negate a) = isFinite a := by
  have hn := negate_toNat a
  have hl := a.isLt
  have he : expField (negate a) = expField a := by unfold expField; rw [hn]; split <;> omega
  unfold isFinite; rw [he]

theorem sign_negate (a : F64) : sign (negate a) = !sign a := by
  have hn := negate_toNat a
  have hl := a.isLt
  unfold sign; rw [BitVec.msb_eq_decide, BitVec.msb_eq_decide, hn]
  by_cases h : a.toNat < 2 ^ 63
  · rw [if_pos h, decide_eq_true (by omega), decide_eq_false (by omega)]; rfl
  · rw [if_neg h, decide_eq_false (by omega), decide_eq_true (by omega)]; rfl

theorem units_pack_zero (b : Bool) : units (pack b 0) = 0 := by cases b <;> decide +kernel
theorem isFinite_pack_zero (b : Bool) : isFinite (pack b 0) = true := by cases b <;> decide +kernel

theorem scale_pos : 0 < scale := Nat.pow_pos (by decide)

theorem fadd_finite {a b : F64} (ha : isFinite a = true) (hb : isFinite b = true) :
    fadd a b = if units a + units b = 0 then pack (sign a && sign b) 0
      else round (decide (units a + units b < 0)) (units a + units b).natAbs 1 := by
  unfold fadd
  simp [isNan_of_finite ha, isNan_of_finite hb, isInf_of_finite ha, isInf_of_finite hb]

theorem fmul_finite {a b : F64} (ha : isFinite a = true) (hb : isFinite b = true) :
    fmul a b = round (sign a != sign b) (mag a * mag b) scale := by
  unfold fmul
  simp [isNan_of_finite ha, isNan_of_finite hb, isInf_of_finite ha, isInf_of_finite hb]

theorem fdiv_finite {a b : F64} (ha : isFinite a = true) (hb : isFinite b = true) (h0 : mag b ≠ 0) :
    fdiv a b = round (sign a != sign b) (scale * mag a) (mag b) := by
  unfold fdiv
  simp [isNan_of_finite ha, isNan_of_finite hb, isInf_of_finite ha, isInf_of_finite hb, h0]

/-- The same real number as another fraction. -/
theorem nearest_congr {num num' : Int} {den den' : Nat} {r : F64} (hd : 0 < den) (hd' : 0 < den')
    (e : num * den' = num' * den) (h : NearestEven num den r) : NearestEven num' den' r := by
  have k : ∀ u : Int, (num' - den' * u).natAbs * den = (num - den * u).natAbs * den' := by
    intro u
    have : (num' - den' * u) * den = (num - den * u) * den' := by linear_combination -e
    have := congrArg Int.natAbs this
    rwa [Int.natAbs_mul, Int.natAbs_mul, Int.natAbs_natCast, Int.natAbs_natCast] at this
  refine ⟨h.finite, fun x hx => ?_, fun x hx hne heq => ?_⟩
  · have := Nat.mul_le_mul_right den' (h.nearest x hx)
    rw [← k, ← k] at this
    exact Nat.le_of_mul_le_mul_right this hd
  · refine h.even x hx hne ?_
    have := congrArg (· * den) heq
    simp only [k] at this
    exact Nat.eq_of_mul_eq_mul_right hd' this

/-- A bound on a rounded result by a bound on the exact one. -/
theorem nearest_le {num : Int} {den : Nat} {r : F64} {k t : Nat} (hd : 0 < den) (h : NearestEven num den r)
    (hk : k < 2 ^ 53) (hmax : k * 2 ^ t ≤ maxUnits) (hn : num.natAbs ≤ den * (k * 2 ^ t)) : mag r ≤ k * 2 ^ t := by
  have hx := mag_round_exact false (k * 2 ^ t) 1 k t (by decide) hk hmax (by omega)
  have hy := mag_round_exact true (k * 2 ^ t) 1 k t (by decide) hk hmax (by omega)
  have ux : units (round false (k * 2 ^ t) 1) = (k * 2 ^ t : Nat) := by
    unfold units; rw [hx.2.1, hx.2.2]; simp
  have uy : units (round true (k * 2 ^ t) 1) = -(k * 2 ^ t : Nat) := by
    unfold units; rw [hy.2.1, hy.2.2]; simp
  have nx := h.nearest _ hx.1
  have ny := h.nearest _ hy.1
  rw [ux] at nx; rw [uy] at ny
  rw [← units_natAbs]
  clear hmax hx hy ux uy
  generalize hK : k * 2 ^ t = K at *
  by_contra hc
  have hc' : K < (units r).natAbs := by omega
  rcases lt_or_ge (units r) 0 with h0 | h0
  · have h2 : (den : Int) * units r < -(den * K) := by
      have : (den : Int) * units r < den * -K := Int.mul_lt_mul_of_pos_left (by omega) (by omega)
      rwa [mul_neg] at this
    have h3 : (num.natAbs : Int) ≤ den * K := by exact_mod_cast hn
    rw [mul_neg] at ny
    omega
  · have h2 : (den : Int) * K < den * units r := Int.mul_lt_mul_of_pos_left (by omega) (by omega)
    have h3 : (num.natAbs : Int) ≤ den * K := by exact_mod_cast hn
    omega

end Sys2Proof.Binary64
end

