-- ==== Sys2Proof/Laws/PerInstr.lean ====
section
/-! SUPPORT. What is said of every command as syntax: it is well-formed, and the opcode map has a row for it whose mask
takes all 8 bits and whose pattern is its opcode (30_encoding.md R70, R71). -/

namespace Sys2Proof.Laws.OpcodeMap

/-- The command is well-formed, and a row of the opcode map is its own, with all 8 bits fixed. -/
def Statement (i : Instr) : Prop :=
  i.wf = true ∧ ∃ row ∈ opcodeTable, row.instr = i ∧ row.mask = 0xFF#8 ∧ row.pattern = encode i

theorem ldcal : Statement .ldcal := ⟨rfl, ⟨0xFF#8, 0x01#8, .ldcal⟩, by decide, rfl, rfl, rfl⟩

theorem ldraw : Statement .ldraw := ⟨rfl, ⟨0xFF#8, 0x02#8, .ldraw⟩, by decide, rfl, rfl, rfl⟩

theorem comp : Statement .comp := ⟨rfl, ⟨0xFF#8, 0x03#8, .comp⟩, by decide, rfl, rfl, rfl⟩

theorem clr : Statement .clr := ⟨rfl, ⟨0xFF#8, 0x04#8, .clr⟩, by decide, rfl, rfl, rfl⟩

end Sys2Proof.Laws.OpcodeMap
end

