-- ==== Sys2Proof/Tests/Slice0.lean ====
section
/-! SUPPORT. The model's own tests and the witnesses of the statements' hypotheses. Expected values come from
95_test_vectors.md (the vector's id is named), from 30_encoding.md's tables, or by hand from the rule named. -/

namespace Sys2Proof.Tests
open Sys2Proof Sys2Proof.Machine

/-! ### Small states -/

/-- The CCU after a command. -/
def after (i : Instr) (s : State) : Ccu :=
  match exec i s with
  | .next t => t.ccu
  | _ => s.ccu

/-- The CCU after one access. -/
def afterAccess (x : Access) (s : State) : Ccu :=
  match perform x s with
  | .next t => t.ccu
  | _ => s.ccu

/-- The STATUS byte after the next step. -/
def statusAfterStep (s : State) : Byte :=
  match step s with
  | .next t => t.ccu.status
  | _ => 0xFF#8

/-- The windows of LC1 and RW1, every byte valid but A[24] (LC5). -/
def filled : Windows :=
  { a := #v[0x70, 0x6B, 0x43, 0x67, 0x18, 0xFC, 0x7D, 0x8E, 0x43, 0xD6, 0xD0, 0x0B, 0x27, 0x0B, 0x8C, 0x00, 0xF9, 0xFF,
            0x8C, 0x3C, 0xF8, 0xC6, 0x70, 0x17, 0x00, 0x4B],
    b := #v[0x6E, 0x01, 0x00, 0x13, 0x25, 0x03, 0x1E],
    d := #v[0x65, 0x5A, 0xC0, 0x7E, 0xED, 0x00, 0x75, 0x30],
    av := (Vector.replicate 26 true).set 24 false, bv := Vector.replicate 7 true, dv := Vector.replicate 8 true }

/-- Coefficient set K1 (95_test_vectors.md section 2.4). -/
def k1 : CoefFile :=
  { t1 := 27504, t2 := 26435, t3 := -1000, p1 := 36477, p2 := -10685, p3 := 3024, p4 := 2855, p5 := 140, p6 := -7,
    p7 := 15500, p8 := -14600, p9 := 6000, h1 := 75, h2 := 366, h3 := 0, h4 := 309, h5 := 50, h6 := 30 }

/-- The reading of V1. -/
def v1 : AdcFile := { p := 415148, t := 519888, h := 30000 }

/-- Full windows, nothing loaded. -/
def full : State := State.reset.withCcu { Ccu.reset with win := filled }

/-- A state with these coefficients and this reading, ready for COMP. -/
def ready (k : CoefFile) (r : AdcFile) : State :=
  full.withCcu { full.ccu with coef := k, adc := r, calv := true, rawv := true }

/-- The state with these accesses to come. -/
def coming (xs : List Access) (s : State) : State := s.withPending xs

/-! ### Decoding: each command's word, bit by bit (30_encoding.md R71), and the reserved values (R72) -/

theorem test_decode_ldcal : decode 0b00000001#8 = .ok .ldcal := by decide
theorem test_decode_ldraw : decode 0b00000010#8 = .ok .ldraw := by decide
theorem test_decode_comp : decode 0b00000011#8 = .ok .comp := by decide
theorem test_decode_clr : decode 0b00000100#8 = .ok .clr := by decide
theorem test_decode_reserved : decode 0x00#8 = .error (.reserved 0x00#8) ∧ decode 0x05#8 = .error (.reserved 0x05#8) ∧
    decode 0x81#8 = .error (.reserved 0x81#8) ∧ decode 0xFF#8 = .error (.reserved 0xFF#8) := by decide
theorem test_table_words : decodeTableWord 8 1 = some .ldcal ∧ decodeTableWord 8 2 = some .ldraw ∧
    decodeTableWord 8 3 = some .comp ∧ decodeTableWord 8 4 = some .clr ∧ decodeTableWord 8 0 = none := by decide

/-! ### Well-formedness: a script line with the wrong number of bytes is refused (30_encoding.md R84) -/

theorem test_wf_refuses_long_fillA : (Line.fillA (List.replicate 27 0)).wf = false := by decide
theorem test_wf_refuses_long_fillB : (Line.fillB (List.replicate 8 0)).wf = false := by decide
theorem test_wf_refuses_long_fillD : (Line.fillD (List.replicate 9 0)).wf = false := by decide
theorem test_wf_refuses_short_loadCal_a : (Line.loadCal (List.replicate 25 0) (List.replicate 7 0)).wf = false := by decide
theorem test_wf_refuses_short_loadCal_b : (Line.loadCal (List.replicate 26 0) (List.replicate 6 0)).wf = false := by decide
theorem test_wf_refuses_short_readRaw : (Line.readRaw (List.replicate 7 0)).wf = false := by decide
theorem test_wf_accepts : Instr.wf .comp = true ∧ (Line.fillA (List.replicate 26 0)).wf = true ∧
    (Line.fillD []).wf = true := by decide

/-! ### The port -/

/-- The ends of each range of 20_memory.md R51. -/
theorem test_port_map_ends : portMap 0x19#8 = some (.a 25) ∧ portMap 0x1A#8 = none ∧ portMap 0x20#8 = some (.b 0) ∧
    portMap 0x26#8 = some (.b 6) ∧ portMap 0x27#8 = none ∧ portMap 0x37#8 = some (.d 7) ∧ portMap 0x38#8 = none ∧
    portMap 0x40#8 = some .cmd ∧ portMap 0x61#8 = some (.coef .h6) ∧ portMap 0x62#8 = none ∧
    portMap 0x74#8 = some .humPct ∧ portMap 0x75#8 = none := by decide
/-- CT10, CT11: writes to read-only and unmapped addresses. -/
theorem test_write_ignored : perform (.write 0x41#8 0xFF) full = .next full ∧
    perform (.write 0x50#8 0xFF) full = .next full ∧ perform (.write 0x90#8 0xFF) full = .next full :=
  ⟨rfl, rfl, rfl⟩
/-- CT12: a window write while CALV = 1 changes the window and not the coefficient. -/
theorem test_write_window : (afterAccess (.write 0x00#8 0xFF) (ready k1 v1)).win.a[0] = 0xFF#8 ∧
    (afterAccess (.write 0x00#8 0xFF) (ready k1 v1)).coef.t1 = 27504 := by decide
/-- R162 takes bits 7:0 of the value written. -/
theorem test_write_low_byte : (afterAccess (.write 0x37#8 0x1A5) State.reset).win.d[7] = 0xA5#8 ∧
    (afterAccess (.write 0x37#8 0x1A5) State.reset).win.dv[7] = true := by decide
/-- CT1. -/
theorem test_read_status : (memRead 0x41#8 State.reset).host.replies = [.u8 0x00#8] := by decide
/-- A signed register is returned as its signed value (R163): T3 of LC1. -/
theorem test_read_signed : (((ready k1 v1).ccu.value (.coef .t3)).bind integerOf) = some (-1000) := by decide
/-- STATUS 0x1F after V1, with the bits of 10_state.md R30. -/
theorem test_status_bits : ({ Ccu.reset with calv := true, tv := true, err := 6#3 } : Ccu).status = 0xC5#8 := by decide

/-! ### Field assembly -/

/-- DE2, DE3, DE4, DE6, DE7, DE8 (lo, hi). -/
theorem test_pairs : s16le 0xFF#8 0x7F#8 = 32767 ∧ s16le 0x00#8 0x80#8 = -32768 ∧ u16le 0x00#8 0x80#8 = 32768 ∧
    s16le 0xFF#8 0xFF#8 = -1 ∧ s16le 0x18#8 0xFC#8 = -1000 ∧ s16le 0x01#8 0x80#8 = -32767 ∧
    u16le 0x34#8 0x12#8 = 4660 := by decide
/-- DE9, DE12 to DE14. -/
theorem test_packed : h4 0x13#8 0x25#8 = 309 ∧ h5 0x25#8 0x03#8 = 50 ∧ h4 0x80#8 0x0F#8 = 2063 ∧ h5 0xF0#8 0x80#8 = 2063 ∧
    h4 0x15#8 0xA7#8 = 343 ∧ h5 0xA7#8 0x01#8 = 26 := by decide
/-- DE19 to DE22. -/
theorem test_signed_byte : s8 0x7F#8 = 127 ∧ s8 0x80#8 = -128 ∧ s8 0xFF#8 = -1 ∧ s8 0xE2#8 = -30 := by decide
/-- RW5, RW6. -/
theorem test_adc : adc20 0x12#8 0x34#8 0x56#8 = 0x12345 ∧ adc20 0x9A#8 0xBC#8 0xDE#8 = 0x9ABCD ∧
    adc16 0xF0#8 0x0D#8 = 0xF00D ∧ adc20 0x00#8 0x00#8 0x10#8 = 1 := by decide

/-! ### Commands: one step each -/

/-- LC5: LC1 with A[24] never written. -/
theorem test_ldcal : (after .ldcal full).coef = k1 ∧ (after .ldcal full).status = 0x01#8 := by decide +kernel
/-- CT9: E_LOCKED before E_SHORT. -/
theorem test_ldcal_locked : after .ldcal (State.reset.withCcu { Ccu.reset with calv := true }) =
    { Ccu.reset with calv := true, err := 3#3 } := by decide +kernel
/-- RW1. -/
theorem test_ldraw : (after .ldraw full).adc = v1 ∧ (after .ldraw full).status = 0x02#8 ∧
    (after .ldraw full).win.dv = Vector.replicate 8 false := by decide +kernel
/-- CT16: LDRAW on a consumed window. -/
theorem test_ldraw_consumed : (after .ldraw (ready k1 v1 |>.withCcu (after .ldraw full))).err = 2#3 := by decide +kernel
/-- V1: the bit patterns of 95_test_vectors.md section 2.4. -/
theorem test_comp_v1 : (after .comp (ready k1 v1)).tFine = 128422 ∧ (after .comp (ready k1 v1)).tempC = 0x4039151D460F8000#64 ∧
    (after .comp (ready k1 v1)).tempF = 0x405349805F86F99A#64 ∧
    (after .comp (ready k1 v1)).pressPa = 0x40F892D4215C750E#64 ∧
    (after .comp (ready k1 v1)).humPct = 0x404C856F59B47C29#64 ∧ (after .comp (ready k1 v1)).status = 0x1F#8 := by
  decide +kernel
/-- V12: a zero denominator with P1 ≠ 0; stages T and H are written, PRESS_PA holds no value. -/
theorem test_comp_v12 :
    (after .comp (ready { k1 with t1 := 0, t2 := 32767, t3 := 0, p2 := -32768, p3 := 0 } { v1 with t := 588306 })).tFine =
      1176576 ∧
    (after .comp (ready { k1 with t1 := 0, t2 := 32767, t3 := 0, p2 := -32768, p3 := 0 } { v1 with t := 588306 })).status =
      0xD7#8 := by
  decide +kernel
/-- V2: a negative sum is floored, not truncated. -/
theorem test_stageT_floor : (stageT Binary64.arith 430000 27504 26435 (-1000)).2 = -16244 := by decide +kernel
/-- V3, V4, V8: the clamp above and below, and the negative zero that stays. -/
theorem test_humidity_clamp : humidity Binary64.arith k1 { v1 with h := 65535 } = 0x4059000000000000#64 ∧
    humidity Binary64.arith k1 { v1 with h := 0 } = 0x0000000000000000#64 ∧
    humidity Binary64.arith { k1 with h2 := 0 } { v1 with h := 0 } = 0x8000000000000000#64 := by decide +kernel
/-- CT14. -/
theorem test_clr : (after .clr (ready k1 v1)).status = 0x00#8 ∧ (after .clr (ready k1 v1)).holds (.coef .t1) = false := by
  decide +kernel
/-- CT6. -/
theorem test_illegal : afterAccess (.write 0x40#8 0x80) full = { full.ccu with err := 1#3 } := by decide +kernel
/-- CT2 to CT5: each command as the first after reset. -/
theorem test_first_commands : statusAfterStep (State.reset.withFetchWord 8 1) = 0x40#8 ∧
    statusAfterStep (State.reset.withFetchWord 8 2) = 0x40#8 ∧ statusAfterStep (State.reset.withFetchWord 8 3) = 0x80#8 ∧
    statusAfterStep (State.reset.withFetchWord 8 4) = 0x00#8 := by decide +kernel

/-! ### Floating point, by hand from IEEE 754 -/

/-- 2^53 + 1 is half way and goes to the even 2^53; 2^53 + 3 goes to 2^53 + 4. -/
theorem test_ties_to_even : Binary64.fofint 9007199254740993 = 0x4340000000000000#64 ∧
    Binary64.fofint 9007199254740995 = 0x4340000000000002#64 := by decide +kernel
/-- 1 / 3, and the smallest positive value halved, which is half way and goes to the even zero. -/
theorem test_quotients : Binary64.fdiv 0x3FF0000000000000#64 0x4008000000000000#64 = 0x3FD5555555555555#64 ∧
    Binary64.fdiv 0x0000000000000001#64 0x4000000000000000#64 = 0x0000000000000000#64 := by decide +kernel

/-! ### Witnesses: for each statement with hypotheses, a state and operands that meet them together

Each is named after its statement (Obligations.<Name>) and, where it has several clauses, meets each of them. -/

theorem witness_StepRunsDecodedCommand :
    (coming [.write 0x40#8 0x103, .reset] State.reset).host.pending = .write 0x40#8 0x103 :: [.reset] ∧
    portMap 0x40#8 = some .cmd ∧ decode (lowByte 0x103) = .ok .comp ∧ State.reset.host.pending = [] := by decide
theorem witness_OpcodeWordsDecode :
    0x05#8 ≠ 0x01#8 ∧ 0x05#8 ≠ 0x02#8 ∧ 0x05#8 ≠ 0x03#8 ∧ 0x05#8 ≠ (0x04#8 : Byte) := by decide
theorem witness_DecodeAndEncodeAgree : decode 0x04#8 = .ok .clr := by decide
theorem witness_ReservedOpcodeIsIllegal : ∀ v ∈ [0x01#8, 0x02#8, 0x03#8, 0x04#8], BitVec.ofNat 8 0x1FF ≠ v := by decide
/-- Every clause at both ends of its range. -/
theorem witness_HostWriteEffect : (0x00#8).toNat < 26 ∧ (0x19#8).toNat < 26 ∧
    (0x20 ≤ (0x20#8).toNat ∧ (0x20#8).toNat - 0x20 < 7) ∧ (0x20 ≤ (0x26#8).toNat ∧ (0x26#8).toNat - 0x20 < 7) ∧
    (0x30 ≤ (0x30#8).toNat ∧ (0x30#8).toNat - 0x30 < 8) ∧ (0x30 ≤ (0x37#8).toNat ∧ (0x37#8).toNat - 0x30 < 8) ∧
    (0x40#8).toNat = 0x40 ∧
    ∀ a ∈ [0x1A#8, 0x1F#8, 0x27#8, 0x2F#8, 0x38#8, 0x3F#8, 0x41#8, 0xFF#8], 26 ≤ a.toNat ∧
      (a.toNat < 0x20 ∨ 0x26 < a.toNat) ∧ (a.toNat < 0x30 ∨ 0x37 < a.toNat) ∧ a.toNat ≠ 0x40 := by decide
/-- Every register that can hold a value holds one, and the first and the last address of each range name theirs. -/
theorem witness_HostReadReturnsHeldValue :
    portMap 0x41#8 = some .status ∧ State.reset.ccu.value .status = some (.u8 0x00#8) ∧
    ((0x00#8).toNat = 0x00 + (0 : Fin 26).val ∧ full.ccu.win.av[0] = true) ∧
    ((0x19#8).toNat = 0x00 + (25 : Fin 26).val ∧ full.ccu.win.av[25] = true) ∧
    ((0x20#8).toNat = 0x20 + (0 : Fin 7).val ∧ full.ccu.win.bv[0] = true) ∧
    ((0x26#8).toNat = 0x20 + (6 : Fin 7).val ∧ full.ccu.win.bv[6] = true) ∧
    ((0x30#8).toNat = 0x30 + (0 : Fin 8).val ∧ full.ccu.win.dv[0] = true) ∧
    ((0x37#8).toNat = 0x30 + (7 : Fin 8).val ∧ full.ccu.win.dv[7] = true) ∧
    (after .comp (ready k1 v1)).calv = true ∧ (after .comp (ready k1 v1)).rawv = true ∧
    (after .comp (ready k1 v1)).tv = true ∧ (after .comp (ready k1 v1)).pv = true ∧
    (after .comp (ready k1 v1)).hv = true ∧ portMap 0x74#8 = some .humPct ∧
    (after .comp (ready k1 v1)).value .humPct = some (.fp 0x404C856F59B47C29#64) := by decide +kernel
theorem witness_PortMapTable : (0x1A#8 ≤ 0x1A#8 ∧ 0x1A#8 ≤ 0x1F#8) ∧ (0x27#8 ≤ 0x2F#8 ∧ 0x2F#8 ≤ 0x2F#8) ∧
    (0x38#8 ≤ 0x38#8 ∧ 0x38#8 ≤ 0x3F#8) ∧ (0x42#8 ≤ 0x4F#8 ∧ 0x4F#8 ≤ 0x4F#8) ∧ (0x62#8 ≤ 0x67#8 ∧ 0x67#8 ≤ 0x67#8) ∧
    (0x6B#8 ≤ 0x6F#8 ∧ 0x6F#8 ≤ 0x6F#8) ∧ 0x75#8 ≤ (0xFF#8 : BitVec 8) := by decide
theorem witness_PortMapIsInjective : portMap 0x50#8 = some (.coef .t1) := by decide
/-- Two states that differ in a coefficient that holds no value, and a step of theirs. -/
theorem witness_UnheldContentsNeverMatter :
    State.Indistinguishable (coming [.read 0x50#8] State.reset)
      (coming [.read 0x50#8] (State.reset.withCcu { Ccu.reset with coef := k1 })) ∧
    step (coming [.read 0x50#8] State.reset) = .next (memRead 0x50#8 State.reset) :=
  ⟨⟨fun r => by cases r <;> rfl, rfl⟩, rfl⟩
/-- Each kind of fill, at the last byte of its window, and a short one. -/
theorem witness_ScriptLinesExpand :
    (Line.fillA (List.replicate 26 7)).wf = true ∧ (List.replicate 26 (7 : Byte))[25]? = some 7 ∧
    (Line.fillB (List.replicate 7 7)).wf = true ∧ (List.replicate 7 (7 : Byte))[6]? = some 7 ∧
    (Line.fillD (List.replicate 8 7)).wf = true ∧ (List.replicate 8 (7 : Byte))[7]? = some 7 ∧
    (Line.fillD [1, 2]).wf = true ∧ ([1, 2] : List Byte)[1]? = some 2 := by decide
theorem witness_PackedHumidityLaw : 4095 ≤ 4095 ∧ h4 0xFF#8 0x0F#8 = (4095 : Nat) ∧ h5 0xF0#8 0xFF#8 = (4095 : Nat) := by
  decide
theorem witness_LdcalLoadsCoefficients : full.ccu.calv = false ∧ (∀ k : Fin 26, k ≠ 24 → full.ccu.win.av[k] = true) ∧
    (∀ k : Fin 7, full.ccu.win.bv[k] = true) := by decide
/-- `full` with these valid bits of A and B. -/
def lacking (av : Vector Bool 26) (bv : Vector Bool 7) : State :=
  full.withCcu { full.ccu with win := { filled with av := av, bv := bv } }

/-- A locked state, and states that lack the first and the last byte that LDCAL needs of A, and the last one of B. -/
theorem witness_LdcalErrors : (ready k1 v1).ccu.calv = true ∧
    (lacking (filled.av.set 0 false) filled.bv).ccu.calv = false ∧
    (∃ k : Fin 26, k ≠ 24 ∧ (lacking (filled.av.set 0 false) filled.bv).ccu.win.av[k] = false) ∧
    (∃ k : Fin 26, k ≠ 24 ∧ (lacking (filled.av.set 25 false) filled.bv).ccu.win.av[k] = false) ∧
    (∃ k : Fin 7, (lacking filled.av (filled.bv.set 6 false)).ccu.win.bv[k] = false) := by decide
theorem witness_UndecodedByteIsIgnored : ∀ i : Instr, ∃ t, exec i full = .next t := by
  intro i; cases i <;> exact ⟨_, rfl⟩
theorem witness_PairDecodeIsBijective : (-32768 : Int) ≤ -32768 ∧ (-32768 : Int) ≤ 32767 := by decide
/-- A run of accesses in a loaded session, with no reset and no CLR. -/
theorem witness_CoefficientsImmutableInSession : (ready k1 v1).ccu.calv = true ∧
    (∀ x ∈ [Access.write 0x00#8 0xFF, .read 0x41#8], ¬ x.EndsSession) ∧
    ∃ t, performAll [.write 0x00#8 0xFF, .read 0x41#8] (ready k1 v1) = .next t := by
  refine ⟨by decide, ?_, _, rfl⟩
  intro x hx
  simp only [List.mem_cons, List.not_mem_nil, or_false] at hx
  rcases hx with rfl | rfl
  · rintro (h | ⟨a, v, h, hp, -⟩)
    · cases h
    · cases h; revert hp; decide
  · rintro (h | ⟨a, v, h, -⟩) <;> cases h
theorem witness_Adc20Law : 1048575 ≤ 1048575 ∧ adc20 0xFF#8 0xFF#8 0xF0#8 = 1048575 := by decide
theorem witness_LdrawUnpacksReading : ∀ k : Fin 8, full.ccu.win.dv[k] = true := by decide
theorem witness_LdrawInvalidatesOutputs : (∀ k : Fin 8, (full.withCcu { full.ccu with coef := k1, calv := true }).ccu.win.dv[k] = true) ∧
    (full.withCcu { full.ccu with coef := k1, calv := true }).ccu.calv = true := by decide
theorem witness_LdrawShortBurst : ∃ k : Fin 8, State.reset.ccu.win.dv[k] = false := by decide
/-- After a successful LDRAW, a run that writes every byte of D but D[7]. -/
theorem witness_WindowIsConsumed : (∀ k : Fin 8, full.ccu.win.dv[k] = true) ∧
    exec .ldraw full = .next (full.withCcu full.ccu.loadReading) ∧
    (∀ x ∈ [Access.write 0x36#8 0], ¬ x.WritesTo (.d 7)) ∧
    ∃ u, performAll [.write 0x36#8 0] (full.withCcu full.ccu.loadReading) = .next u := by
  refine ⟨by decide, rfl, ?_, _, rfl⟩
  intro x hx
  simp only [List.mem_cons, List.not_mem_nil, or_false] at hx
  rintro ⟨a, v, h, hp⟩
  subst hx; cases h; revert hp; decide
/-- Each branch of COMP: no calibration, no reading, a denominator that is zero (V5), one that is not (V1). -/
theorem witness_CompRunsItsStages : State.reset.ccu.calv = false ∧
    (State.reset.withCcu { Ccu.reset with calv := true }).ccu.rawv = false ∧
    (ready k1 v1).ccu.calv = true ∧ (ready k1 v1).ccu.rawv = true ∧
    denominatorIsZero Binary64.arith { k1 with p1 := 0 } v1 = true ∧
    denominatorIsZero Binary64.arith k1 v1 = false := by decide +kernel
/-- Two states with the same coefficients and reading and different windows and outputs; and a run between two COMPs. -/
theorem witness_CompIsPure :
    (ready k1 v1).ccu.calv = true ∧ (ready k1 v1).ccu.rawv = true ∧
    ((ready k1 v1).withCcu { (ready k1 v1).ccu with tFine := 7, win := Windows.reset }).ccu.coef = (ready k1 v1).ccu.coef ∧
    (∃ t, exec .comp (ready k1 v1) = .next t ∧ ∃ u, performAll [.read 0x70#8] t = .next u ∧ ∃ v, exec .comp u = .next v) ∧
    ∀ x ∈ [Access.read 0x70#8], ¬ x.EndsSession ∧ ¬ x.Issues .ldraw := by
  refine ⟨by decide, by decide, rfl, ⟨_, rfl, _, rfl, _, rfl⟩, ?_⟩
  intro x hx
  simp only [List.mem_cons, List.not_mem_nil, or_false] at hx
  subst hx
  exact ⟨(by rintro (h | ⟨a, v, h, -⟩) <;> cases h), (by rintro ⟨a, v, h, -⟩; cases h)⟩
/-- The value just above 100, 100 itself, −0, and the negative value nearest to 0. -/
theorem witness_ClampToClosedInterval :
    Binary64.isNan 0x4059000000000001#64 = false ∧
    100 * (Binary64.scale : Int) < Binary64.units 0x4059000000000001#64 ∧
    Binary64.units 0x4059000000000000#64 ≤ 100 * (Binary64.scale : Int) ∧
    0 ≤ Binary64.units 0x8000000000000000#64 ∧ Binary64.units 0x8000000000000001#64 < 0 := by decide +kernel
theorem witness_StageTRoundsExactFormula : (0 : Int) ≤ 1048575 ∧ (1048575 : Int) ≤ 1048575 ∧ (65535 : Int) ≤ 65535 ∧
    (-32768 : Int) ≤ -32768 ∧ (32767 : Int) ≤ 32767 := by decide
theorem witness_GuardedPressureIsFinite : denominatorIsZero Binary64.arith k1 v1 = false := by decide +kernel
theorem witness_DenominatorIsZeroForZeroP1 : ({ k1 with p1 := 0 } : CoefFile).p1 = 0#16 := by decide
theorem witness_ClrEndsSession : exec .clr full = .next (resetEvent full) ∧ Reg.cmd ≠ .status := ⟨rfl, by decide⟩
theorem witness_FirstCommandOfSession : State.reset.ccu.Cleared ∧ decode 0xFF#8 = .error (.reserved 0xFF#8) := by
  refine ⟨⟨rfl, rfl, rfl, rfl, rfl, rfl, by decide, by decide, by decide, ?_, by decide⟩, by decide⟩
  intro r h
  cases r <;> first | rfl | exact absurd rfl h | (rename_i k; revert k; decide)
theorem witness_ErrorPriority : (ready k1 v1).ccu.calv = true ∧ State.reset.ccu.calv = false ∧
    (∃ k : Fin 26, k ≠ 24 ∧ State.reset.ccu.win.av[k] = false) ∧ (∃ k : Fin 7, State.reset.ccu.win.bv[k] = false) ∧
    (∃ k : Fin 8, State.reset.ccu.win.dv[k] = false) ∧
    (State.reset.withCcu { Ccu.reset with calv := true }).ccu.rawv = false ∧
    denominatorIsZero Binary64.arith (ready { k1 with p1 := 0 } v1).ccu.coef (ready { k1 with p1 := 0 } v1).ccu.adc = true ∧
    decode 0x00#8 = .error (.reserved 0x00#8) := by decide +kernel
/-- A command that ends with an error other than E_DIV0, and one that ends with E_DIV0 (V5). -/
theorem witness_ErrorChangesOnlyErr : (∃ t, command 0x01#8 State.reset = .next t ∧ t.ccu.err ≠ 0#3 ∧ t.ccu.err ≠ 6#3) ∧
    ∃ t, command 0x03#8 (ready { k1 with p1 := 0 } v1) = .next t ∧ t.ccu.err = 6#3 :=
  ⟨⟨_, rfl, by decide +kernel, by decide +kernel⟩, _, rfl, by decide +kernel⟩
/-- A next state of each command, with and without an error. -/
theorem witness_Frames : ∀ i : Instr, (∃ t, exec i State.reset = .next t) ∧ ∃ t, exec i full = .next t := by
  intro i; cases i <;> exact ⟨⟨_, rfl⟩, _, rfl⟩
theorem witness_LdcalFrame_error : ∃ t, exec .ldcal State.reset = .next t ∧ t.ccu.err ≠ 0#3 := ⟨_, rfl, by decide⟩
theorem witness_LdrawFrame_error : ∃ t, exec .ldraw State.reset = .next t ∧ t.ccu.err ≠ 0#3 := ⟨_, rfl, by decide⟩
/-- Each premise of the statement about writers. -/
theorem witness_OnlyWriters :
    (afterAccess (.write 0x40#8 1) full).coef ≠ full.ccu.coef ∧ (afterAccess (.write 0x40#8 1) full).calv = true ∧
    (afterAccess (.write 0x40#8 2) full).adc ≠ full.ccu.adc ∧ (afterAccess (.write 0x40#8 2) full).rawv = true ∧
    (afterAccess (.write 0x40#8 3) (ready k1 v1)).tempC ≠ (ready k1 v1).ccu.tempC ∧
    ((ready k1 v1).ccu.tv = false ∧ (afterAccess (.write 0x40#8 3) (ready k1 v1)).tv = true) ∧
    ((ready k1 v1).ccu.hv = false ∧ (afterAccess (.write 0x40#8 3) (ready k1 v1)).hv = true) ∧
    ((ready k1 v1).ccu.pv = false ∧ (afterAccess (.write 0x40#8 3) (ready k1 v1)).pv = true) ∧
    (afterAccess (.write 0x19#8 1) full).win.a[25] ≠ full.ccu.win.a[25] ∧
    (afterAccess (.write 0x26#8 1) full).win.b[6] ≠ full.ccu.win.b[6] ∧
    (afterAccess (.write 0x30#8 1) full).win.d[0] ≠ full.ccu.win.d[0] ∧
    (State.reset.ccu.win.av[25] = false ∧ (afterAccess (.write 0x19#8 1) State.reset).win.av[25] = true) ∧
    (State.reset.ccu.win.bv[6] = false ∧ (afterAccess (.write 0x26#8 1) State.reset).win.bv[6] = true) ∧
    (State.reset.ccu.win.dv[0] = false ∧ (afterAccess (.write 0x30#8 1) State.reset).win.dv[0] = true) ∧
    (afterAccess (.write 0x40#8 0) full).err ≠ full.ccu.err := by decide +kernel
/-- A session with a reading and outputs, and full windows. -/
def measured (k : CoefFile) : State := full.withCcu { (ready k v1).ccu with tv := true, pv := true, hv := true }

/-- Each premise of the statement about clearers: reset, LDRAW, and a COMP with a zero denominator (V5). -/
theorem witness_OnlyClearersOfValidity :
    perform .reset (measured k1) = .next (resetEvent (measured k1)) ∧
    ((measured k1).ccu.calv = true ∧ (resetEvent (measured k1)).ccu.calv = false) ∧
    ((measured k1).ccu.rawv = true ∧ (resetEvent (measured k1)).ccu.rawv = false) ∧
    ((measured k1).ccu.win.av[25] = true ∧ (resetEvent (measured k1)).ccu.win.av[25] = false) ∧
    ((measured k1).ccu.win.bv[6] = true ∧ (resetEvent (measured k1)).ccu.win.bv[6] = false) ∧
    ((measured k1).ccu.tv = true ∧ (afterAccess (.write 0x40#8 2) (measured k1)).tv = false) ∧
    ((measured k1).ccu.hv = true ∧ (afterAccess (.write 0x40#8 2) (measured k1)).hv = false) ∧
    ((measured k1).ccu.win.dv[7] = true ∧ (afterAccess (.write 0x40#8 2) (measured k1)).win.dv[7] = false) ∧
    ((measured { k1 with p1 := 0 }).ccu.pv = true ∧
      (afterAccess (.write 0x40#8 3) (measured { k1 with p1 := 0 })).pv = false) :=
  ⟨rfl, by decide +kernel⟩
/-- A loaded state with a reading meets the invariant, and its next step runs COMP. -/
theorem witness_StepKeepsInv : (coming [.write 0x40#8 3] (ready k1 v1)).ccu.Inv ∧
    ∃ t, step (coming [.write 0x40#8 3] (ready k1 v1)) = .next t := by
  refine ⟨⟨⟨rfl, ?_, ?_, ?_, by decide⟩, ⟨?_, ?_, ?_, ?_, ?_, ?_⟩, fun _ => by decide⟩, _, rfl⟩ <;> intro h <;> cases h
theorem witness_StepKeepsBounds : (coming [.write 0x40#8 3] (ready k1 v1)).ccu.OutputsBounded ∧
    ∃ t, step (coming [.write 0x40#8 3] (ready k1 v1)) = .next t := by
  refine ⟨⟨?_, ?_, ?_, ?_, ?_, ?_⟩, _, rfl⟩ <;> intro h <;> cases h
/-- The largest finite value against itself for the difference and the quotient, 1 for the sum and the product. -/
theorem witness_ArithmeticIsNearestEven :
    Binary64.isFinite 0x7FEFFFFFFFFFFFFF#64 = true ∧ Binary64.isFinite 0x3FF0000000000000#64 = true ∧
    (Binary64.units 0x7FEFFFFFFFFFFFFF#64 - Binary64.units 0x7FEFFFFFFFFFFFFF#64).natAbs ≤ Binary64.maxUnits ∧
    (Binary64.units 0x3FF0000000000000#64 + Binary64.units 0x3FF0000000000000#64).natAbs ≤ Binary64.maxUnits ∧
    (Binary64.units 0x3FF0000000000000#64 * Binary64.units 0x7FEFFFFFFFFFFFFF#64).natAbs ≤
      Binary64.scale * Binary64.maxUnits ∧
    Binary64.units 0x7FEFFFFFFFFFFFFF#64 ≠ 0 ∧
    (Binary64.units 0x7FEFFFFFFFFFFFFF#64 * Binary64.scale).natAbs ≤
      (Binary64.units 0x7FEFFFFFFFFFFFFF#64).natAbs * Binary64.maxUnits := by decide +kernel
theorem witness_SignedZeroRules : Binary64.isFinite 0x8000000000000000#64 = true ∧
    Binary64.units 0x8000000000000000#64 = 0 ∧ Binary64.isFinite 0x0000000000000001#64 = true ∧
    Binary64.units 0x0000000000000001#64 ≠ 0 := by decide +kernel
theorem witness_ConversionsAreExact : (-9007199254740991 : Int).natAbs < 2 ^ 53 ∧
    Binary64.isFinite 0xFFEFFFFFFFFFFFFF#64 = true := by decide +kernel
theorem witness_LiteralsConvert : (2147483648 : Int) ∈ [67108864, (2147483648 : Int)] := by decide

end Sys2Proof.Tests
end

section
/-! PROOFS. The cleared session: which bit says that a register holds a value, and what clearing leaves. -/

namespace Sys2Proof.Machine

/-! The valid condition of each register (10_state.md R35): the bit that `Ccu.holds` reads for it. -/

section ValidConditions

variable (c : Ccu)

@[simp] theorem Ccu.holds_a (k : Fin 26) : c.holds (.a k) = c.win.av[k] := heldIf_isSome ..
@[simp] theorem Ccu.holds_b (k : Fin 7) : c.holds (.b k) = c.win.bv[k] := heldIf_isSome ..
@[simp] theorem Ccu.holds_d (k : Fin 8) : c.holds (.d k) = c.win.dv[k] := heldIf_isSome ..
@[simp] theorem Ccu.holds_cmd : c.holds .cmd = false := rfl
@[simp] theorem Ccu.holds_status : c.holds .status = true := rfl
@[simp] theorem Ccu.holds_coef (r : Coef) : c.holds (.coef r) = c.calv := heldIf_isSome ..
@[simp] theorem Ccu.holds_adcP : c.holds .adcP = c.rawv := heldIf_isSome ..
@[simp] theorem Ccu.holds_adcT : c.holds .adcT = c.rawv := heldIf_isSome ..
@[simp] theorem Ccu.holds_adcH : c.holds .adcH = c.rawv := heldIf_isSome ..
@[simp] theorem Ccu.holds_tFine : c.holds .tFine = c.tv := heldIf_isSome ..
@[simp] theorem Ccu.holds_tempC : c.holds .tempC = c.tv := heldIf_isSome ..
@[simp] theorem Ccu.holds_tempF : c.holds .tempF = c.tv := heldIf_isSome ..
@[simp] theorem Ccu.holds_pressPa : c.holds .pressPa = c.pv := heldIf_isSome ..
@[simp] theorem Ccu.holds_humPct : c.holds .humPct = c.hv := heldIf_isSome ..

end ValidConditions

/-- After a clear the valid condition of every register but STATUS is a bit that the clear set to 0. -/
theorem Ccu.clear_holds (c : Ccu) {r : Reg} (hr : r ≠ .status) : c.clear.holds r = false := by
  cases r with
  | status => exact absurd rfl hr
  | _ => simp

/-- STATUS is made of the flags and ERR alone, all of them 0 after a clear (10_state.md R30). -/
@[simp] theorem Ccu.clear_status (c : Ccu) : c.clear.status = 0x00#8 := by
  simp [Ccu.status]

/-- A clear leaves a cleared session, whatever was there before. -/
theorem Ccu.clear_cleared (c : Ccu) : c.clear.Cleared where
  calv := rfl
  rawv := rfl
  tv := rfl
  pv := rfl
  hv := rfl
  err := rfl
  av k := by simp
  bv k := by simp
  dv k := by simp
  holds _ hr := c.clear_holds hr
  status := c.clear_status

/-- The CCU at reset has nothing left to clear. -/
theorem Ccu.clear_reset : Ccu.reset.clear = Ccu.reset := rfl

theorem Ccu.reset_cleared : Ccu.reset.Cleared := Ccu.clear_reset ▸ Ccu.reset.clear_cleared

/-- CLR succeeds in every state, with exactly the effect of the reset event (43_control.md R160, 70_reset_and_hazards.md
R190). -/
theorem exec_clr_eq_resetEvent (s : State) : exec .clr s = .next (resetEvent s) := rfl

theorem resetEvent_cleared (s : State) : (resetEvent s).ccu.Cleared := s.ccu.clear_cleared

/-- Settles O1: CLR and the reset event are the same clear, the CCU at reset is its own clear, and a clear leaves a
cleared session. -/
theorem resetAndClearHoldNothing : Obligations.ResetAndClearHoldNothing :=
  ⟨Ccu.reset_cleared, fun s =>
    ⟨⟨resetEvent s, exec_clr_eq_resetEvent s, resetEvent_cleared s⟩, resetEvent_cleared s⟩⟩

end Sys2Proof.Machine
end

section
/-! PROOFS. The encodings: a CMD write of a reserved opcode, and the byte functions as the sums and sign extensions of
30_encoding.md. -/

namespace Sys2Proof.Machine

/-- A write to CMD starts the command that its low byte names (43_control.md R162). -/
theorem perform_write_cmd (value : Nat) (s : State) :
    perform (.write (Reg.addr .cmd) value) s = command (lowByte value) s := by
  simp only [perform, memWrite, portMap_addr]

/-- A value that is no opcode runs the illegal command (30_encoding.md R72). -/
theorem command_reserved {v : Byte} (h : ∀ i, encode i ≠ v) (s : State) :
    command v s = .next (s.withCcu (s.ccu.raise .illCmd)) := by
  simp only [command, decode_reserved v h, execIllegal]

/-- The four opcode words are the encodings of the four commands (30_encoding.md R71). -/
theorem encode_mem_opcodeWords (i : Instr) : encode i ∈ [0x01#8, 0x02#8, 0x03#8, 0x04#8] := by
  cases i <;> decide

/-- Settles O6: the low byte is the encoding of no command, so the write runs the illegal command. -/
theorem reservedOpcodeIsIllegal : Obligations.ReservedOpcodeIsIllegal := by
  rintro s _ value rfl hreserved
  have hnot : ∀ i, encode i ≠ lowByte value := fun i hi =>
    hreserved _ (encode_mem_opcodeWords i) hi.symm
  exact (perform_write_cmd value s).trans (command_reserved hnot s)

/-! The byte functions in the spec's own form: the weighted sum of the bytes, less one full range where the sign bit is
set. -/

theorem u16le_eq_add_mul (lo hi : Byte) : u16le lo hi = lo.toNat + hi.toNat * 256 := by
  rw [u16le, Nat.mul_comm]

theorem s16le_eq_sub (lo hi : Byte) :
    s16le lo hi = u16le lo hi - (if u16le lo hi > 32767 then 65536 else 0) := by
  unfold s16le; split <;> split <;> omega

theorem s8_eq_sub (b : Byte) : s8 b = b.toNat - (if b.toNat > 127 then 256 else 0) := by
  unfold s8; split <;> split <;> omega

/-- The ADC value's bytes are a pair with the low byte last (30_encoding.md R81). -/
theorem adc16_eq_u16le (msb lsb : Byte) : adc16 msb lsb = u16le lsb msb :=
  Nat.add_comm ..

/-- Settles O16: the pair is the pattern {hi, lo}, and its sign extension subtracts 65536 above 32767. -/
theorem littleEndianPairLaw : Obligations.LittleEndianPairLaw := by
  intro lo hi
  refine ⟨u16le_eq_add_mul lo hi, u16le_eq lo hi, Nat.le_of_lt_succ (u16le_lt lo hi), s16le_eq lo hi, ?_⟩
  have hsub := s16le_eq_sub lo hi
  rw [u16le_eq_add_mul] at hsub
  exact_mod_cast hsub

/-- Settles O17: the signed byte is two's complement, which subtracts 256 above 127. -/
theorem signedByteLaw : Obligations.SignedByteLaw := fun b =>
  ⟨s8_eq b, rfl, s8_eq_sub b⟩

/-- Settles O24: the ADC value is the little-endian pair of its two bytes. -/
theorem adc16Law : Obligations.Adc16Law := by
  intro msb lsb
  rw [adc16_eq_u16le]
  exact ⟨(u16le_eq_add_mul lsb msb).trans (Nat.add_comm ..), Nat.le_of_lt_succ (u16le_lt lsb msb), u16le_eq lsb msb⟩

end Sys2Proof.Machine
end

section
/-! PROOFS. Calibration decode: the value LDCAL stores for each form of coefficient, and the coefficients over a run of
accesses. -/

namespace Sys2Proof.Machine

/-! Each form of coefficient is read back from its register as the spec's value of its bytes: no byte function answers
more than the register's width holds (40_calibration_decode.md R101 to R106). -/

theorem toNat_ofNat_u16le (lo hi : Byte) : (BitVec.ofNat 16 (u16le lo hi)).toNat = lo.toNat + hi.toNat * 256 := by
  rw [BitVec.toNat_ofNat, Nat.mod_eq_of_lt (u16le_lt lo hi), u16le_eq_add_mul]

theorem toInt_ofInt_s16le (lo hi : Byte) :
    (BitVec.ofInt 16 (s16le lo hi)).toInt =
      if lo.toNat + hi.toNat * 256 > 32767 then ((lo.toNat + hi.toNat * 256 : Nat) : Int) - 65536
      else (lo.toNat + hi.toNat * 256 : Nat) := by
  obtain ⟨hmin, hmax⟩ := s16le_range lo hi
  rw [toInt_ofInt16 _ hmin hmax, s16le_eq_sub, u16le_eq_add_mul]
  split <;> simp

theorem toNat_ofNat_u8 (b : Byte) : (BitVec.ofNat 8 (u8 b)).toNat = b.toNat := by
  rw [u8, BitVec.ofNat_toNat, BitVec.setWidth_eq]

theorem toInt_ofInt_s8 (b : Byte) :
    (BitVec.ofInt 8 (s8 b)).toInt = if b.toNat > 127 then (b.toNat : Int) - 256 else b.toNat := by
  rw [s8_eq, BitVec.ofInt_toInt, ← s8_eq, s8_eq_sub]
  split <;> simp

theorem toInt_ofInt_h4 (b3 b4 : Byte) : (BitVec.ofInt 16 (h4 b3 b4)).toInt = b3.toNat * 16 + b4.toNat % 16 := by
  have := b3.isLt
  rw [h4_eq, toInt_ofInt16] <;> omega

theorem toInt_ofInt_h5 (b4 b5 : Byte) : (BitVec.ofInt 16 (h5 b4 b5)).toInt = b4.toNat / 16 + b5.toNat * 16 := by
  have := b4.isLt; have := b5.isLt
  rw [h5_eq, toInt_ofInt16] <;> omega

theorem toInt_ofInt_h4_le (b3 b4 : Byte) : (BitVec.ofInt 16 (h4 b3 b4)).toInt ≤ 4095 := by
  have := b3.isLt
  rw [toInt_ofInt_h4]; omega

theorem toInt_ofInt_h5_le (b4 b5 : Byte) : (BitVec.ofInt 16 (h5 b4 b5)).toInt ≤ 4095 := by
  have := b4.isLt; have := b5.isLt
  rw [toInt_ofInt_h5]; omega

/-- LDCAL completes with CALV = 0 and complete windows (40_calibration_decode.md R100). -/
theorem exec_ldcal_of_complete {s : State} (hcalv : s.ccu.calv = false)
    (hcomplete : s.ccu.win.calibrationComplete = true) :
    exec .ldcal s = .next (s.withCcu (s.ccu.loadCoefficients (decodeCoefficients s.ccu.win))) := by
  simp [exec, execLdcal, Ccu.loadCalibration, hcalv, hcomplete]

/-- LDCAL is refused with CALV = 1 before it looks at the windows (40_calibration_decode.md R110). -/
theorem exec_ldcal_of_calv {s : State} (hcalv : s.ccu.calv = true) :
    exec .ldcal s = .next (s.withCcu (s.ccu.raise .locked)) := by
  simp [exec, execLdcal, Ccu.loadCalibration, hcalv]

/-- Settles O19: LDCAL stores what `decodeCoefficients` makes of the windows, and each coefficient reads back as the
value of its bytes. -/
theorem ldcalLoadsCoefficients : Obligations.LdcalLoadsCoefficients := by
  intro s hcalv hav hbv
  refine ⟨_, exec_ldcal_of_complete hcalv ((calibrationComplete_iff _).2 ⟨hav, hbv⟩), ?_, rfl⟩
  exact
    ⟨toNat_ofNat_u16le .., toInt_ofInt_s16le .., toInt_ofInt_s16le ..,
     toNat_ofNat_u16le .., toInt_ofInt_s16le .., toInt_ofInt_s16le .., toInt_ofInt_s16le .., toInt_ofInt_s16le ..,
     toInt_ofInt_s16le .., toInt_ofInt_s16le .., toInt_ofInt_s16le .., toInt_ofInt_s16le ..,
     toNat_ofNat_u8 .., toInt_ofInt_s16le .., toNat_ofNat_u8 ..,
     toInt_ofInt_h4 .., toInt_ofInt_h4_le .., toInt_ofInt_h5 .., toInt_ofInt_h5_le .., toInt_ofInt_s8 ..⟩

/-! A run of accesses. -/

/-- A run that ends in a state is its first access, then the run of the others. -/
theorem performAll_cons_eq_next {x : Access} {xs : List Access} {s t : State} :
    performAll (x :: xs) s = .next t ↔ ∃ u, perform x s = .next u ∧ performAll xs u = .next t := by
  obtain ⟨u, hu⟩ := perform_next x s
  simp [performAll, hu]

/-- What each access of a run keeps, the run keeps. -/
theorem performAll_keeps {P : State → Prop} {xs : List Access}
    (hkeeps : ∀ x ∈ xs, ∀ s t, P s → perform x s = .next t → P t) {s t : State} (hs : P s)
    (hrun : performAll xs s = .next t) : P t := by
  induction xs generalizing s with
  | nil => cases hrun; exact hs
  | cons x xs ih =>
    obtain ⟨u, hx, hxs⟩ := performAll_cons_eq_next.1 hrun
    have hu : P u := hkeeps x List.mem_cons_self s u hs hx
    exact ih (fun y hy => hkeeps y (List.mem_cons_of_mem x hy)) hu hxs

/-! The coefficients and CALV are left alone by every access but LDCAL and the end of the session. -/

/-- The CCU has the coefficients k loaded: its file is k, and CALV = 1. -/
def Ccu.Loaded (k : CoefFile) (c : Ccu) : Prop := c.coef = k ∧ c.calv = true

section Loaded

variable {k : CoefFile} {c : Ccu}

theorem Ccu.Loaded.writeReg (h : c.Loaded k) (v : Byte) (r : Reg) : (c.writeReg v r).Loaded k := by
  rw [writeReg_eq]; exact h

theorem Ccu.Loaded.loadCalibration (h : c.Loaded k) : c.loadCalibration.Loaded k := by
  obtain ⟨-, heq⟩ | ⟨hcalv, -⟩ | ⟨hcalv, -⟩ := loadCalibration_cases c
  · rw [heq]; exact h
  all_goals exact absurd h.2 (by simp [hcalv])

theorem Ccu.Loaded.loadReading (h : c.Loaded k) : c.loadReading.Loaded k := by
  obtain ⟨-, heq⟩ | ⟨-, heq⟩ := loadReading_cases c <;> rw [heq] <;> exact h

theorem Ccu.Loaded.compensate (h : c.Loaded k) (fp : Config.Arith) : (c.compensate fp).Loaded k := by
  obtain ⟨_, heq⟩ | ⟨_, heq⟩ := compensate_writes fp c <;> rw [heq] <;> exact h

end Loaded

/-- An access that does not end the session keeps the loaded coefficients (40_calibration_decode.md R110). -/
theorem perform_keeps_loaded {k : CoefFile} {x : Access} {s t : State} (hx : ¬ x.EndsSession) (hs : s.ccu.Loaded k)
    (h : perform x s = .next t) : t.ccu.Loaded k := by
  rcases perform_cases h with
    ⟨addr, -, rfl⟩ | ⟨hreset, -⟩ | ⟨-, value, r, -, -, -, rfl⟩ | ⟨-, -, -, -, rfl⟩ | ⟨-, rfl⟩ | ⟨-, rfl⟩ | ⟨-, rfl⟩ |
    ⟨hclr, -⟩ | ⟨-, -, rfl⟩
  · rwa [(memRead_spec addr s).1]
  · exact absurd (.inl hreset) hx
  · exact hs.writeReg (lowByte value) r
  · exact hs
  · exact hs.loadCalibration
  · exact hs.loadReading
  · exact hs.compensate Binary64.arith
  · exact absurd (.inr hclr) hx
  · exact hs

/-- Settles O23: with CALV = 1 LDCAL is refused, and a run of accesses none of which ends the session keeps the loaded
coefficients. -/
theorem coefficientsImmutableInSession : Obligations.CoefficientsImmutableInSession :=
  ⟨fun _ hcalv => exec_ldcal_of_calv hcalv, fun _ s _ hcalv hends hrun =>
    performAll_keeps (P := fun u => u.ccu.Loaded s.ccu.coef)
      (fun x hx _ _ hu hstep => perform_keeps_loaded (hends x hx) hu hstep) ⟨rfl, hcalv⟩ hrun⟩

end Sys2Proof.Machine
end

section
/-! PROOFS. Raw reading: LDRAW with window D complete and with a byte missing, and a byte of D over a run of accesses. -/

namespace Sys2Proof.Machine

/-- LDRAW completes with all 8 bytes of D valid (41_raw_unpack.md R120). -/
theorem exec_ldraw_of_complete {s : State} (hcomplete : ∀ k : Fin 8, s.ccu.win.dv[k] = true) :
    exec .ldraw s = .next (s.withCcu (s.ccu.loadAdc (unpackReading s.ccu.win))) := by
  simp [exec, execLdraw, Ccu.loadReading, (dataComplete_iff s.ccu.win).2 hcomplete]

/-- LDRAW ends with E_SHORT when a byte of D is not valid (41_raw_unpack.md R121). -/
theorem exec_ldraw_of_missing {s : State} {k : Fin 8} (hmissing : s.ccu.win.dv[k] = false) :
    exec .ldraw s = .next (s.withCcu (s.ccu.raise .short)) := by
  have hshort : s.ccu.win.dataComplete = false := by
    rw [Bool.eq_false_iff, Ne, dataComplete_iff]
    intro hcomplete
    simp [hcomplete k] at hmissing
  simp [exec, execLdraw, Ccu.loadReading, hshort]

/-- COMP completes with the calibration and a reading loaded (42_compensation.md R130). -/
theorem exec_comp_of_loaded {s : State} (hcalv : s.ccu.calv = true) (hrawv : s.ccu.rawv = true) :
    exec .comp s = .next (s.withCcu (s.ccu.writeOutputs (compensation Binary64.arith s.ccu.coef s.ccu.adc))) := by
  simp [exec, execComp, Ccu.compensate, hcalv, hrawv]

/-- Settles O27: one missing byte refuses the whole reading, and a raised error is ERR and nothing else. -/
theorem ldrawShortBurst : Obligations.LdrawShortBurst := by
  rintro s ⟨k, hmissing⟩
  exact exec_ldraw_of_missing hmissing

/-! A valid bit of D, once 0, stays 0 under every access but a write to its byte. -/

/-- LDCAL reads the windows and leaves them alone. -/
@[simp] theorem Ccu.loadCalibration_win (c : Ccu) : c.loadCalibration.win = c.win := by
  obtain ⟨-, heq⟩ | ⟨-, -, heq⟩ | ⟨-, -, heq⟩ := loadCalibration_cases c <;> simp [heq]

/-- COMP leaves the windows alone. -/
@[simp] theorem Ccu.compensate_win (fp : Config.Arith) (c : Ccu) : (c.compensate fp).win = c.win := by
  obtain ⟨_, heq⟩ | ⟨_, heq⟩ := compensate_writes fp c <;> simp [heq]

section MissingByte

variable {c : Ccu} {k : Fin 8}

theorem Ccu.writeReg_keeps_missing (h : c.win.dv[k] = false) (v : Byte) {r : Reg} (hr : r ≠ .d k) :
    (c.writeReg v r).win.dv[k] = false := by
  obtain ⟨heq, -⟩ | ⟨-, hdv⟩ := writeReg_d c v r k
  · exact absurd heq hr
  · exact hdv.trans h

theorem Ccu.loadReading_keeps_missing (h : c.win.dv[k] = false) : c.loadReading.win.dv[k] = false := by
  obtain ⟨-, heq⟩ | ⟨-, heq⟩ := loadReading_cases c
  · simpa [heq] using h
  · simp [heq]

end MissingByte

/-- An access that does not write D[k] leaves it missing (41_raw_unpack.md R122). -/
theorem perform_keeps_missing {k : Fin 8} {x : Access} {s t : State} (hx : ¬ x.WritesTo (.d k))
    (hs : s.ccu.win.dv[k] = false) (h : perform x s = .next t) : t.ccu.win.dv[k] = false := by
  rcases perform_cases h with
    ⟨addr, -, rfl⟩ | ⟨-, rfl⟩ | ⟨addr, value, r, hwrite, hport, -, rfl⟩ | ⟨-, -, -, -, rfl⟩ | ⟨-, rfl⟩ | ⟨-, rfl⟩ |
    ⟨-, rfl⟩ | ⟨-, rfl⟩ | ⟨-, -, rfl⟩
  · rwa [(memRead_spec addr s).1]
  · exact s.ccu.clear_cleared.dv k
  · have hr : r ≠ .d k := fun heq => hx ⟨addr, value, hwrite, heq ▸ hport⟩
    exact Ccu.writeReg_keeps_missing hs (lowByte value) hr
  · exact hs
  · simpa using hs
  · exact Ccu.loadReading_keeps_missing hs
  · simpa using hs
  · exact s.ccu.clear_cleared.dv k
  · exact hs

/-- Settles O28: the successful LDRAW consumes every byte of D, a run without a write to D[k] leaves that byte missing, and
a missing byte refuses the next reading. -/
theorem windowIsConsumed : Obligations.WindowIsConsumed := by
  intro xs s t u k hcomplete hldraw hxs hrun
  rw [exec_ldraw_of_complete hcomplete] at hldraw
  cases hldraw
  have hconsumed : ∀ j : Fin 8, (s.ccu.loadAdc (unpackReading s.ccu.win)).win.dv[j] = false := by simp
  have hmissing : u.ccu.win.dv[k] = false :=
    performAll_keeps (P := fun v => v.ccu.win.dv[k] = false)
      (fun x hx _ _ hv hstep => perform_keeps_missing (hxs x hx) hv hstep) (hconsumed k) hrun
  exact ⟨hconsumed, exec_ldraw_of_missing hmissing⟩

/-! The outputs between a reading and the next COMP. -/

/-- A loaded reading leaves no output register holding a value (41_raw_unpack.md R123). -/
theorem Ccu.loadAdc_holds_no_output (c : Ccu) (a : AdcFile) :
    ∀ r ∈ [Reg.tFine, .tempC, .tempF, .pressPa, .humPct], (c.loadAdc a).holds r = false := by
  simp

/-- After a COMP every output register but PRESS_PA holds a value, whatever was computed (42_compensation.md R143). -/
theorem Ccu.writeOutputs_holds_outputs (c : Ccu) (o : Outputs) :
    ∀ r ∈ [Reg.tFine, .tempC, .tempF, .humPct], (c.writeOutputs o).holds r = true := by
  simp

/-- Settles O29: the loaded reading makes every output invalid, and COMP on it writes them all, PRESS_PA where the
denominator is not zero. -/
theorem ldrawInvalidatesOutputs : Obligations.LdrawInvalidatesOutputs := by
  intro s hcomplete
  refine ⟨_, exec_ldraw_of_complete hcomplete, rfl, rfl, rfl, s.ccu.loadAdc_holds_no_output _, fun hcalv =>
    ⟨_, exec_comp_of_loaded hcalv rfl, Ccu.writeOutputs_holds_outputs _ _, ?_⟩⟩
  rw [State.withCcu_ccu, Ccu.holds_pressPa, Ccu.writeOutputs_pv]
  exact compensation_press_isSome ..

end Sys2Proof.Machine
end

section
/-! PROOFS. The integer conversions of binary64, the values that are no infinity, and the clamp of the humidity stage. -/

namespace Sys2Proof.Binary64

/-- An integer below 2^53 in magnitude is a significand with the exponent of the unit, so its conversion does not round
(42_compensation.md R132). -/
theorem fofint_exact {i : Int} (hi : i.natAbs < 2 ^ 53) :
    isFinite (fofint i) = true ∧ units (fofint i) = i * scale := by
  have hmax : i.natAbs * 2 ^ 1074 ≤ maxUnits :=
    Nat.mul_le_mul (Nat.le_pred_of_lt hi) (Nat.pow_le_pow_right (by decide) (by decide))
  have hexact : scale * i.natAbs = 1 * (i.natAbs * 2 ^ 1074) := by rw [scale, Nat.one_mul, Nat.mul_comm]
  obtain ⟨hfinite, hsign, hmag⟩ := mag_round_exact (decide (i < 0)) _ 1 i.natAbs 1074 Nat.one_pos hi hmax hexact
  refine ⟨hfinite, ?_⟩
  rw [fofint, flit, units, hsign, hmag, ← scale]
  push_cast
  by_cases hneg : i < 0
  · rw [if_pos (decide_eq_true hneg), abs_of_neg hneg]; ring
  · rw [if_neg (by simpa using hneg), abs_of_nonneg (not_lt.mp hneg)]

/-- The floor of a finite value is its count of units divided by the units of 1, rounded down. -/
theorem ffloor_finite {a : F64} (ha : isFinite a = true) : ffloor a = units a / (scale : Int) := by
  rw [ffloor, if_pos ha, Int.fdiv_eq_ediv_of_nonneg _ (Int.natCast_nonneg scale)]

/-- Settles O54: below 2^53 the conversion takes the integer itself for a significand, and the floor is a division of
the exact units by the positive `scale`. -/
theorem conversionsAreExact : Obligations.ConversionsAreExact := by
  have hscale : (0 : Int) < scale := Int.natCast_pos.mpr scale_pos
  refine ⟨fun i hi => fofint_exact hi, fun a ha => ?_⟩
  rw [ffloor_finite ha]
  exact ⟨Int.ediv_mul_le _ hscale.ne', Int.lt_ediv_add_one_mul_self _ hscale⟩

/-- An infinity stands above every finite magnitude. -/
theorem maxUnits_lt_mag_of_isInf {a : F64} (ha : isInf a = true) : maxUnits < mag a := by
  obtain ⟨hexp, hfrac⟩ : expField a = 2047 ∧ fracField a = 0 := by simpa [isInf] using ha
  rw [mag, hexp, hfrac, if_neg (by decide), Nat.add_zero, ← pow_add]
  exact maxUnits_lt

/-- A value that is no NaN and of no more than the greatest finite magnitude is finite. -/
theorem isFinite_of_mag_le {a : F64} (hnan : isNan a = false) (hmag : mag a ≤ maxUnits) : isFinite a = true := by
  by_contra hinfinite
  have hexp : expField a = 2047 := by simpa [isFinite] using hinfinite
  have hfrac : fracField a = 0 := by simpa [isNan, hexp] using hnan
  have hinf : isInf a = true := by simp [isInf, hexp, hfrac]
  exact (maxUnits_lt_mag_of_isInf hinf).not_ge hmag

/-! The bounds of the clamp are literals of the stages (42_compensation.md R133). -/

theorem flit_hundred : flit 100 1 = 0x4059000000000000#64 := by decide +kernel
theorem flit_zero : flit 0 1 = 0x0000000000000000#64 := by decide +kernel

theorem units_hundred : units 0x4059000000000000#64 = 100 * (scale : Int) := by
  rw [← flit_hundred]; exact (fofint_exact (i := 100) (by decide)).2

theorem units_zero : units 0x0000000000000000#64 = 0 := units_pack_zero false

/-- Where neither operand is a NaN, the comparison is of the two counts of units. -/
theorem flt_eq_decide {a b : F64} (ha : isNan a = false) (hb : isNan b = false) :
    flt a b = decide (units a < units b) := by
  simp [flt, ha, hb]

/-- 100 is within the format's range. -/
theorem hundred_scale_le_maxUnits : 100 * scale ≤ maxUnits := by decide +kernel

end Sys2Proof.Binary64

namespace Sys2Proof.Machine
open Sys2Proof.Binary64

/-- The clamp of a value that is no NaN, by its exact value (42_compensation.md R142). -/
theorem clamp_eq {h : F64} (hnan : isNan h = false) :
    clamp arith h =
      if 100 * (scale : Int) < units h then 0x4059000000000000#64
      else if units h < 0 then 0x0000000000000000#64 else h := by
  have hgt : arith.fgt h (lit arith 100) = decide (100 * (scale : Int) < units h) := by
    rw [arith_fgt, lit, arith_flit, flit_hundred, fgt, flt_eq_decide (by decide) hnan, units_hundred]
  have hlt : arith.flt h (lit arith 0) = decide (units h < 0) := by
    rw [arith_flt, lit, arith_flit, flit_zero, flt_eq_decide hnan (by decide), units_zero]
  simp only [clamp, hgt, hlt, decide_eq_true_eq]
  rw [lit, lit, arith_flit, flit_hundred, flit_zero]

/-- Settles O32: the clamp compares exact counts of units with those of 100 and of 0, and a value between the two is too
small for an infinity. -/
theorem clampToClosedInterval : Obligations.ClampToClosedInterval := by
  intro h hnan
  have hscale : (0 : Int) < scale := Int.natCast_pos.mpr scale_pos
  rcases lt_or_ge (100 * (scale : Int)) (units h) with habove | hle
  · have hclamp : clamp arith h = 0x4059000000000000#64 := by rw [clamp_eq hnan, if_pos habove]
    rw [hclamp, units_hundred]
    exact ⟨fun _ => rfl, by omega, by omega, by omega, le_rfl, by decide⟩
  rcases lt_or_ge (units h) 0 with hbelow | hge
  · have hclamp : clamp arith h = 0x0000000000000000#64 := by
      rw [clamp_eq hnan, if_neg hle.not_gt, if_pos hbelow]
    rw [hclamp, units_zero]
    exact ⟨by omega, fun _ => rfl, by omega, le_rfl, by omega, by decide⟩
  · have hclamp : clamp arith h = h := by rw [clamp_eq hnan, if_neg hle.not_gt, if_neg hge.not_gt]
    have hmag : mag h ≤ maxUnits := by
      refine le_trans ?_ hundred_scale_le_maxUnits
      rw [← units_natAbs]; omega
    rw [hclamp]
    exact ⟨by omega, by omega, fun _ _ => rfl, hge, hle, isFinite_of_mag_le hnan hmag⟩

end Sys2Proof.Machine
end

section
/-! PROOFS. COMP: its three ends, and what it writes over a run of accesses. -/

namespace Sys2Proof.Machine
open Sys2Proof.Binary64

/-! The two preconditions of COMP, in the order of its tests; `exec_comp_of_loaded` is its completion. -/

/-- Without the calibration COMP ends with E_NOCAL (42_compensation.md R146). -/
theorem exec_comp_of_noCal {s : State} (hcalv : s.ccu.calv = false) :
    exec .comp s = .next (s.withCcu (s.ccu.raise .noCal)) := by
  simp [exec, execComp, Ccu.compensate, hcalv]

/-- With the calibration and no reading COMP ends with E_NORAW (42_compensation.md R146). -/
theorem exec_comp_of_noRaw {s : State} (hcalv : s.ccu.calv = true) (hrawv : s.ccu.rawv = false) :
    exec .comp s = .next (s.withCcu (s.ccu.raise .noRaw)) := by
  simp [exec, execComp, Ccu.compensate, hcalv, hrawv]

section WriteOutputs

variable {c : Ccu} {o : Outputs}

/-- Without a pressure PRESS_PA is left alone and the command ends with E_DIV0 (42_compensation.md R139). -/
theorem Ccu.writeOutputs_of_press_none (hpress : o.press = none) :
    (c.writeOutputs o).pv = false ∧ (c.writeOutputs o).err = 6#3 ∧ (c.writeOutputs o).pressPa = c.pressPa := by
  simp [hpress, ErrCode.code]

/-- With a pressure PRESS_PA takes it and the command ends with OK (42_compensation.md R143). -/
theorem Ccu.writeOutputs_of_press_some {p : F64} (hpress : o.press = some p) :
    (c.writeOutputs o).pv = true ∧ (c.writeOutputs o).err = 0#3 ∧ (c.writeOutputs o).pressPa = p := by
  simp [hpress, ErrCode.code]

end WriteOutputs

/-- Settles O30: a failed precondition is a raised error and nothing else; the completed COMP writes `compensation`, which
is made of the stages, with a pressure exactly where the denominator is not zero. -/
theorem compRunsItsStages : Obligations.CompRunsItsStages := by
  intro s
  refine ⟨exec_comp_of_noCal, exec_comp_of_noRaw, fun hcalv hrawv => ⟨_, exec_comp_of_loaded hcalv hrawv,
    rfl, rfl, rfl, rfl, rfl, rfl, fun hzero => ?_, fun hnonzero => ?_, rfl⟩⟩
  · exact Ccu.writeOutputs_of_press_none (compensation_press_of_zero _ _ _ hzero)
  · exact Ccu.writeOutputs_of_press_some (compensation_press_of_nonzero _ _ _ hnonzero)

/-! Between two COMPs: what a run without LDRAW, CLR or reset keeps. -/

/-- What COMP leaves in PRESS_PA: the computed pressure, or what stood there where there is none
(42_compensation.md R139). -/
def Ccu.pressAfterComp (c : Ccu) (k : CoefFile) (r : AdcFile) : F64 := (compensation arith k r).press.getD c.pressPa

/-- COMP would find the coefficients k and the reading r, and leave p in PRESS_PA. -/
structure Ccu.Measured (k : CoefFile) (r : AdcFile) (p : F64) (c : Ccu) : Prop where
  loaded : c.Loaded k
  reading : c.adc = r
  rawv : c.rawv = true
  press : c.pressAfterComp k r = p

section Measured

variable {k : CoefFile} {r : AdcFile} {p : F64}

/-- COMP computes what the coefficients and the reading give. -/
theorem Ccu.Measured.compensate_eq {c : Ccu} (h : c.Measured k r p) :
    c.compensate arith = c.writeOutputs (compensation arith k r) := by
  obtain ⟨⟨hcoef, hcalv⟩, hreading, hrawv, -⟩ := h
  simp [Ccu.compensate, hcoef, hcalv, hreading, hrawv]

/-- A COMP that finds no pressure keeps PRESS_PA, and one that finds it writes it again. -/
theorem Ccu.Measured.compensate {c : Ccu} (h : c.Measured k r p) : (c.compensate arith).Measured k r p := by
  refine ⟨h.loaded.compensate arith, ?_, ?_, ?_⟩ <;> rw [h.compensate_eq]
  · exact h.reading
  · exact h.rawv
  · rw [← h.press]
    cases hpress : (compensation arith k r).press <;> simp [Ccu.pressAfterComp, hpress]

/-- With the coefficients loaded LDCAL changes nothing but ERR (40_calibration_decode.md R110). -/
theorem Ccu.Measured.loadCalibration {c : Ccu} (h : c.Measured k r p) : c.loadCalibration.Measured k r p := by
  obtain ⟨-, heq⟩ | ⟨hcalv, -⟩ | ⟨hcalv, -⟩ := loadCalibration_cases c
  · rw [heq]; exact ⟨h.loaded, h.reading, h.rawv, h.press⟩
  all_goals exact absurd h.loaded.2 (by simp [hcalv])

theorem Ccu.Measured.writeReg {c : Ccu} (h : c.Measured k r p) (v : Byte) (reg : Reg) :
    (c.writeReg v reg).Measured k r p := by
  rw [writeReg_eq]; exact ⟨h.loaded, h.reading, h.rawv, h.press⟩

/-- An access that neither ends the session nor loads a reading keeps what COMP writes (42_compensation.md R144). -/
theorem perform_keeps_measured {x : Access} {s t : State} (hends : ¬ x.EndsSession) (hldraw : ¬ x.Issues .ldraw)
    (hs : s.ccu.Measured k r p) (hstep : perform x s = .next t) : t.ccu.Measured k r p := by
  rcases perform_cases hstep with
    ⟨addr, -, rfl⟩ | ⟨hreset, -⟩ | ⟨-, value, reg, -, -, -, rfl⟩ | ⟨-, -, -, -, rfl⟩ | ⟨-, rfl⟩ | ⟨hissues, -⟩ |
    ⟨-, rfl⟩ | ⟨hclr, -⟩ | ⟨-, -, rfl⟩
  · rwa [(memRead_spec addr s).1]
  · exact absurd (.inl hreset) hends
  · exact hs.writeReg (lowByte value) reg
  · exact hs
  · exact hs.loadCalibration
  · exact absurd hissues hldraw
  · exact hs.compensate
  · exact absurd (.inr hclr) hends
  · exact ⟨hs.loaded, hs.reading, hs.rawv, hs.press⟩

end Measured

/-- The state after a COMP that completes. -/
theorem eq_of_exec_comp {s t : State} (hcalv : s.ccu.calv = true) (hrawv : s.ccu.rawv = true)
    (hcomp : exec .comp s = .next t) :
    t = s.withCcu (s.ccu.writeOutputs (compensation arith s.ccu.coef s.ccu.adc)) :=
  (Host.Outcome.next.inj ((exec_comp_of_loaded hcalv hrawv).symm.trans hcomp)).symm

/-- Settles O31: two COMPs on the same coefficients and reading write the same `Outputs`; a run without LDRAW, CLR or reset
keeps both, and with them what the next COMP leaves in PRESS_PA. -/
theorem compIsPure : Obligations.CompIsPure := by
  constructor
  · intro s s' t t' hcalv hrawv hcalv' hrawv' hcoef hadc hcomp hcomp'
    obtain rfl := eq_of_exec_comp hcalv hrawv hcomp
    obtain rfl := eq_of_exec_comp hcalv' hrawv' hcomp'
    rw [hcoef, hadc]
    refine ⟨rfl, rfl, rfl, rfl, rfl, rfl, fun hpv => ?_⟩
    obtain ⟨p, hpress⟩ := Option.isSome_iff_exists.mp hpv
    simp [hpress]
  · intro xs s t u v hcalv hrawv hcomp hxs hrun hcomp'
    obtain rfl := eq_of_exec_comp hcalv hrawv hcomp
    have hs : s.ccu.Measured s.ccu.coef s.ccu.adc (s.ccu.pressAfterComp s.ccu.coef s.ccu.adc) :=
      ⟨⟨rfl, hcalv⟩, rfl, hrawv, rfl⟩
    obtain ⟨⟨hcoef, hcalv'⟩, hadc, hrawv', hpress⟩ :=
      performAll_keeps (P := fun w => w.ccu.Measured _ _ _)
        (fun x hx _ _ hw hstep => perform_keeps_measured (hxs x hx).1 (hxs x hx).2 hw hstep)
        (hs.compensate_eq ▸ hs.compensate) hrun
    obtain rfl := eq_of_exec_comp hcalv' hrawv' hcomp'
    rw [hcoef, hadc]
    exact ⟨rfl, rfl, rfl, rfl, rfl, hpress, rfl⟩

end Sys2Proof.Machine
end

section
/-! PROOFS. The host write: the address ranges of the windows, and what a write does to the register it names. -/

namespace Sys2Proof.Machine

/-! The windows' addresses name the windows' bytes (20_memory.md R51). -/

theorem portMap_of_windowA {addr : BitVec 8} (h : addr.toNat < 26) : portMap addr = some (.a ⟨addr.toNat, h⟩) :=
  dif_pos h

theorem portMap_of_windowB {addr : BitVec 8} (h : 0x20 ≤ addr.toNat ∧ addr.toNat - 0x20 < 7) :
    portMap addr = some (.b ⟨addr.toNat - 0x20, h.2⟩) :=
  (dif_neg (by omega)).trans (dif_pos h)

theorem portMap_of_windowD {addr : BitVec 8} (h : 0x30 ≤ addr.toNat ∧ addr.toNat - 0x30 < 8) :
    portMap addr = some (.d ⟨addr.toNat - 0x30, h.2⟩) :=
  (dif_neg (by omega)).trans ((dif_neg (by omega)).trans (dif_pos h))

section Write

variable {addr : BitVec 8} (value : Nat) (s : State)

/-- A write to a register that is not CMD starts no command. -/
theorem perform_write_reg {r : Reg} (hmap : portMap addr = some r) (hr : r ≠ .cmd) :
    perform (.write addr value) s = .next (s.withCcu (s.ccu.writeReg (lowByte value) r)) := by
  cases r with
  | cmd => exact absurd rfl hr
  | _ => simp only [perform, memWrite, hmap]

theorem perform_write_unmapped (hmap : portMap addr = none) : perform (.write addr value) s = .next s := by
  simp only [perform, memWrite, hmap]

end Write

/-- A write to a register other than CMD and the window bytes is without effect (20_memory.md R55). -/
theorem Ccu.writeReg_readOnly (c : Ccu) (v : Byte) {r : Reg} (ha : ∀ k, r ≠ .a k) (hb : ∀ k, r ≠ .b k)
    (hd : ∀ k, r ≠ .d k) : c.writeReg v r = c := by
  cases r with
  | a k => exact absurd rfl (ha k)
  | b k => exact absurd rfl (hb k)
  | d k => exact absurd rfl (hd k)
  | _ => rfl

/-! Where the window bytes lie (20_memory.md R51). -/

theorem Reg.addr_a_toNat (k : Fin 26) : (Reg.addr (.a k)).toNat = k := by
  simp only [Reg.addr, BitVec.toNat_ofNat]; omega

theorem Reg.addr_b_toNat (k : Fin 7) : (Reg.addr (.b k)).toNat = 0x20 + k := by
  simp only [Reg.addr, BitVec.toNat_ofNat]; omega

theorem Reg.addr_d_toNat (k : Fin 8) : (Reg.addr (.d k)).toNat = 0x30 + k := by
  simp only [Reg.addr, BitVec.toNat_ofNat]; omega

/-- A write outside the windows and CMD changes nothing: the address names no register, or a read-only one. -/
theorem perform_write_outside {addr : BitVec 8} (value : Nat) (s : State) (ha : 26 ≤ addr.toNat)
    (hb : addr.toNat < 0x20 ∨ 0x26 < addr.toNat) (hd : addr.toNat < 0x30 ∨ 0x37 < addr.toNat)
    (hcmd : addr.toNat ≠ 0x40) : perform (.write addr value) s = .next s := by
  cases hmap : portMap addr with
  | none => exact perform_write_unmapped value s hmap
  | some r =>
    obtain rfl : r.addr = addr := addr_of_portMap addr r hmap
    have hr : r ≠ .cmd := by rintro rfl; exact hcmd rfl
    have hreadOnly : s.ccu.writeReg (lowByte value) r = s.ccu := by
      refine Ccu.writeReg_readOnly _ _ ?_ ?_ ?_
      · rintro k rfl; rw [Reg.addr_a_toNat] at ha; omega
      · rintro k rfl; rw [Reg.addr_b_toNat] at hb; omega
      · rintro k rfl; rw [Reg.addr_d_toNat] at hd; omega
    rw [perform_write_reg value s hmap hr, hreadOnly]
    rfl

/-- Settles O11: the port map names the register of each range; a window byte's write is `writeReg` of it, a write to CMD
is the command, and any other register is read-only. -/
theorem hostWriteEffect : Obligations.HostWriteEffect := by
  intro s addr value v
  refine ⟨fun h => ?windowA, fun h => ?windowB, fun h => ?windowD, fun h => ?cmd, perform_write_outside value s⟩
  case windowA => exact perform_write_reg value s (portMap_of_windowA h) nofun
  case windowB => exact perform_write_reg value s (portMap_of_windowB h) nofun
  case windowD => exact perform_write_reg value s (portMap_of_windowD h) nofun
  case cmd =>
    obtain rfl : addr = Reg.addr .cmd := BitVec.eq_of_toNat_eq h
    exact perform_write_cmd value s

end Sys2Proof.Machine
end

section
/-! PROOFS. The errors: the three ways a command can end, and the first failed test of each command. -/

namespace Sys2Proof.Machine
open Sys2Proof.Binary64

/-- How a command can take the CCU from c to d (60_exceptions.md R174): it succeeds, it raises an error that is not
E_DIV0, or it is a COMP that finds no pressure. -/
inductive Ccu.CommandEnd (c d : Ccu) : Prop
  | success (hok : d.err = 0#3)
  | raised (e : ErrCode) (he : e ≠ .div0) (heq : d = c.raise e)
  | noPressure (hpress : (compensation arith c.coef c.adc).press = none)
      (heq : d = c.writeOutputs (compensation arith c.coef c.adc))

theorem Ccu.loadCalibration_end (c : Ccu) : c.CommandEnd c.loadCalibration := by
  obtain ⟨-, heq⟩ | ⟨-, -, heq⟩ | ⟨-, -, heq⟩ := loadCalibration_cases c
  · exact .raised .locked nofun heq
  · exact .raised .short nofun heq
  · exact .success (by simp [heq])

theorem Ccu.loadReading_end (c : Ccu) : c.CommandEnd c.loadReading := by
  obtain ⟨-, heq⟩ | ⟨-, heq⟩ := loadReading_cases c
  · exact .raised .short nofun heq
  · exact .success (by simp [heq])

theorem Ccu.compensate_end (c : Ccu) : c.CommandEnd (c.compensate arith) := by
  obtain ⟨-, heq⟩ | ⟨-, -, heq⟩ | ⟨-, -, heq⟩ := compensate_cases arith c
  · exact .raised .noCal nofun heq
  · exact .raised .noRaw nofun heq
  · cases hpress : (compensation arith c.coef c.adc).press with
    | none => exact .noPressure hpress heq
    | some p => exact .success (by rw [heq]; exact (Ccu.writeOutputs_of_press_some hpress).2.1)

/-- Every command, with whatever opcode, replaces the CCU part of the state alone, and ends in one of the three ways. -/
theorem command_end (v : Byte) (s : State) : ∃ d, command v s = .next (s.withCcu d) ∧ s.ccu.CommandEnd d := by
  unfold command
  split
  case h_1 i _ =>
    cases i with
    | ldcal => exact ⟨_, rfl, s.ccu.loadCalibration_end⟩
    | ldraw => exact ⟨_, rfl, s.ccu.loadReading_end⟩
    | comp => exact ⟨_, rfl, s.ccu.compensate_end⟩
    | clr => exact ⟨_, rfl, .success rfl⟩
  case h_2 => exact ⟨_, rfl, .raised .illCmd nofun rfl⟩

/-- The code of E_DIV0 is its own (10_state.md R31). -/
theorem ErrCode.code_ne_div0 {e : ErrCode} (he : e ≠ .div0) : e.code ≠ 6#3 := by
  cases e with
  | div0 => exact absurd rfl he
  | _ => decide

/-- A completed COMP without a pressure writes stages T and H, the flags and ERR alone (60_exceptions.md R174). -/
theorem Ccu.writeOutputs_eq_of_press_none (c : Ccu) {o : Outputs} (hpress : o.press = none) :
    c.writeOutputs o =
      { c with tFine := o.tFine, tempC := o.tempC, tempF := o.tempF, humPct := o.humPct,
               tv := true, pv := false, hv := true, err := 6#3 } := by
  simp [Ccu.writeOutputs, hpress, ErrCode.code]

/-- Settles O41: of the three ends of a command a success has no error, a raised error writes ERR with a code other than
E_DIV0's, and a COMP without a pressure ends with E_DIV0. -/
theorem errorChangesOnlyErr : Obligations.ErrorChangesOnlyErr := by
  intro v s t h
  obtain ⟨d, hd, hend⟩ := command_end v s
  obtain rfl : s.withCcu d = t := Host.Outcome.next.inj (hd.symm.trans h)
  simp only [State.withCcu_ccu]
  cases hend with
  | success hok => exact ⟨fun herr => absurd hok herr, fun hdiv0 => absurd (hok.symm.trans hdiv0) (by decide)⟩
  | raised e he heq =>
    subst heq
    exact ⟨fun _ _ => rfl, fun hdiv0 => absurd hdiv0 (ErrCode.code_ne_div0 he)⟩
  | noPressure hpress heq =>
    rw [Ccu.writeOutputs_eq_of_press_none _ hpress] at heq
    subst heq
    exact ⟨fun _ hne => absurd rfl hne, fun _ => ⟨rfl, rfl, rfl, rfl, rfl, rfl, rfl, rfl, rfl⟩⟩

/-- With CALV = 0 LDCAL ends with E_SHORT when a needed byte is not valid (40_calibration_decode.md R107). -/
theorem exec_ldcal_of_missing {s : State} (hcalv : s.ccu.calv = false)
    (hmissing : (∃ k : Fin 26, k ≠ 24 ∧ s.ccu.win.av[k] = false) ∨ ∃ k : Fin 7, s.ccu.win.bv[k] = false) :
    exec .ldcal s = .next (s.withCcu (s.ccu.raise .short)) := by
  have hshort : s.ccu.win.calibrationComplete = false := by
    rw [Bool.eq_false_iff, Ne, calibrationComplete_iff]
    rintro ⟨hav, hbv⟩
    obtain ⟨k, hk, hfalse⟩ | ⟨k, hfalse⟩ := hmissing
    · exact absurd (hav k hk) (Bool.eq_false_iff.1 hfalse)
    · exact absurd (hbv k) (Bool.eq_false_iff.1 hfalse)
  simp [exec, execLdcal, Ccu.loadCalibration, hcalv, hshort]

/-- What the decoder refuses is the encoding of no command. -/
theorem encode_ne_of_decode_error {v : Byte} {e : DecodeError} (h : decode v = .error e) (i : Instr) : encode i ≠ v :=
  fun hi => nomatch h.symm.trans ((decode_ok_iff v i).2 hi)

/-- Settles O40: the first failed test of each command decides the code that it ends with. -/
theorem errorPriority : Obligations.ErrorPriority := by
  refine ⟨?locked, ?ldcalShort, ?ldrawShort, ?noCal, ?noRaw, ?div0, ?illCmd⟩
  case locked => exact fun s hcalv => ⟨_, exec_ldcal_of_calv hcalv, rfl⟩
  case ldcalShort => exact fun s hcalv hmissing => ⟨_, exec_ldcal_of_missing hcalv hmissing, rfl⟩
  case ldrawShort => exact fun s ⟨_, hmissing⟩ => ⟨_, exec_ldraw_of_missing hmissing, rfl⟩
  case noCal => exact fun s hcalv => ⟨_, exec_comp_of_noCal hcalv, rfl⟩
  case noRaw => exact fun s hcalv hrawv => ⟨_, exec_comp_of_noRaw hcalv hrawv, rfl⟩
  case div0 =>
    intro s hcalv hrawv hzero
    exact ⟨_, exec_comp_of_loaded hcalv hrawv,
      (Ccu.writeOutputs_of_press_none (compensation_press_of_zero _ _ _ hzero)).2.1⟩
  case illCmd => exact fun s v hreserved => ⟨_, command_reserved (encode_ne_of_decode_error hreserved) s, rfl⟩

end Sys2Proof.Machine
end

section
/-! PROOFS. The reset event as an access of the host. -/

namespace Sys2Proof.Machine

/-- The reset event is one transition, and no state refuses it (70_reset_and_hazards.md R190). -/
theorem perform_reset (s : State) : perform .reset s = .next (resetEvent s) := rfl

/-- Settles O2: the reset event and CLR end in the same state, which is a cleared session. -/
theorem resetEventActsAsClear : Obligations.ResetEventActsAsClear := fun s =>
  ⟨(perform_reset s).trans (exec_clr_eq_resetEvent s).symm, resetEvent s, perform_reset s, resetEvent_cleared s⟩

end Sys2Proof.Machine
end

section
/-! PROOFS. STATUS as the host sees it. -/

namespace Sys2Proof.Machine

/-- The byte that ERR and the five flags are appended to has each of them in its place (10_state.md R30): a check of the
256 values of STATUS. -/
theorem statusBits : ∀ (err : BitVec 3) (hv pv tv rawv calv : Bool),
    let b : Byte := err ++ BitVec.ofBool hv ++ BitVec.ofBool pv ++ BitVec.ofBool tv ++ BitVec.ofBool rawv ++
      BitVec.ofBool calv
    b.getLsbD 0 = calv ∧ b.getLsbD 1 = rawv ∧ b.getLsbD 2 = tv ∧ b.getLsbD 3 = pv ∧ b.getLsbD 4 = hv ∧
      b.extractLsb' 5 3 = err := by
  decide +kernel

/-- Settles O14: STATUS is ERR and the five flags of the CCU. -/
theorem statusLayout : Obligations.StatusLayout := fun _ => statusBits ..

end Sys2Proof.Machine
end

section
/-! PROOFS. Registers that hold no value: what two CCUs that hold the same values share, field by field, and why every
access keeps it. -/

namespace Sys2Proof.Machine
open Sys2Proof.Binary64

/-- Two windows hold the same bytes: the same valid bits, and the same byte wherever its valid bit is 1. -/
structure SameBytes {n : Nat} (valid valid' : Vector Bool n) (bytes bytes' : Vector Byte n) : Prop where
  bits : valid = valid'
  byte : ∀ k : Fin n, valid[k] = true → bytes[k] = bytes'[k]

section SameBytes

variable {n : Nat} {valid valid' : Vector Bool n} {bytes bytes' : Vector Byte n}

/-- A byte written to both is the same in both, and no other byte changes. -/
theorem SameBytes.set (h : SameBytes valid valid' bytes bytes') (k : Fin n) (v : Byte) :
    SameBytes (valid.set k true) (valid'.set k true) (bytes.set k v) (bytes'.set k v) where
  bits := by rw [h.bits]
  byte j hj := by
    by_cases hjk : k.val = j.val
    · simp [hjk]
    · simp only [Fin.getElem_fin, Vector.getElem_set_ne _ _ hjk] at hj ⊢
      exact h.byte j hj

/-- Where no byte is valid there is none to differ. -/
theorem SameBytes.cleared : SameBytes (Vector.replicate n false) (Vector.replicate n false) bytes bytes' where
  bits := rfl
  byte := by simp

theorem heldIf_inj {b b' : Bool} {v v' : PortValue} :
    heldIf b v = heldIf b' v' ↔ b = b' ∧ (b = true → v = v') := by
  cases b <;> cases b' <;> simp [heldIf]

/-- Byte by byte, the windows hold the same. -/
theorem sameBytes_iff :
    (∀ k : Fin n, heldIf valid[k] (.u8 bytes[k]) = heldIf valid'[k] (.u8 bytes'[k])) ↔
      SameBytes valid valid' bytes bytes' := by
  simp only [heldIf_inj, PortValue.u8.injEq]
  constructor
  · intro h
    exact ⟨Vector.ext fun i hi => (h ⟨i, hi⟩).1, fun k => (h k).2⟩
  · rintro ⟨rfl, hbyte⟩ k
    exact ⟨rfl, hbyte k⟩

end SameBytes

/-- The two CCUs hold the same values, field by field: the flags and ERR, and each register under its valid
condition. -/
structure Ccu.Agree (c d : Ccu) : Prop where
  calv : c.calv = d.calv
  rawv : c.rawv = d.rawv
  tv : c.tv = d.tv
  pv : c.pv = d.pv
  hv : c.hv = d.hv
  err : c.err = d.err
  coef : c.calv = true → c.coef = d.coef
  adc : c.rawv = true → c.adc = d.adc
  tFine : c.tv = true → c.tFine = d.tFine
  tempC : c.tv = true → c.tempC = d.tempC
  tempF : c.tv = true → c.tempF = d.tempF
  pressPa : c.pv = true → c.pressPa = d.pressPa
  humPct : c.hv = true → c.humPct = d.humPct
  windowA : SameBytes c.win.av d.win.av c.win.a d.win.a
  windowB : SameBytes c.win.bv d.win.bv c.win.b d.win.b
  windowD : SameBytes c.win.dv d.win.dv c.win.d d.win.d

/-! `Agree` is `SameHeld`, register by register. -/

/-- The coefficient file is its 18 registers. -/
theorem CoefFile.eq_of_value_eq {k k' : CoefFile} (h : ∀ r, k.value r = k'.value r) : k = k' := by
  cases k
  cases k'
  simp only [CoefFile.mk.injEq]
  exact
    ⟨PortValue.u16.inj (h .t1), PortValue.s16.inj (h .t2), PortValue.s16.inj (h .t3),
     PortValue.u16.inj (h .p1), PortValue.s16.inj (h .p2), PortValue.s16.inj (h .p3),
     PortValue.s16.inj (h .p4), PortValue.s16.inj (h .p5), PortValue.s16.inj (h .p6),
     PortValue.s16.inj (h .p7), PortValue.s16.inj (h .p8), PortValue.s16.inj (h .p9),
     PortValue.u8.inj (h .h1), PortValue.s16.inj (h .h2), PortValue.u8.inj (h .h3),
     PortValue.s16.inj (h .h4), PortValue.s16.inj (h .h5), PortValue.s8.inj (h .h6)⟩

/-- Two CCUs with the same STATUS have the same flags and the same ERR. -/
theorem Ccu.status_inj {c d : Ccu} (h : c.status = d.status) :
    c.calv = d.calv ∧ c.rawv = d.rawv ∧ c.tv = d.tv ∧ c.pv = d.pv ∧ c.hv = d.hv ∧ c.err = d.err := by
  obtain ⟨hcalv, hrawv, htv, hpv, hhv, herr⟩ := statusLayout c
  obtain ⟨hcalv', hrawv', htv', hpv', hhv', herr'⟩ := statusLayout d
  rw [← hcalv, ← hrawv, ← htv, ← hpv, ← hhv, ← herr, ← hcalv', ← hrawv', ← htv', ← hpv', ← hhv', ← herr', h]
  exact ⟨rfl, rfl, rfl, rfl, rfl, rfl⟩

theorem Ccu.SameHeld.agree {c d : Ccu} (h : c.SameHeld d) : c.Agree d := by
  obtain ⟨hcalv, hrawv, htv, hpv, hhv, herr⟩ := Ccu.status_inj (PortValue.u8.inj (Option.some.inj (h .status)))
  exact
    { calv := hcalv, rawv := hrawv, tv := htv, pv := hpv, hv := hhv, err := herr
      coef := fun hv => CoefFile.eq_of_value_eq fun r => (heldIf_inj.1 (h (.coef r))).2 hv
      adc := fun hv => by
        have hp := PortValue.u20.inj ((heldIf_inj.1 (h .adcP)).2 hv)
        have ht := PortValue.u20.inj ((heldIf_inj.1 (h .adcT)).2 hv)
        have hh := PortValue.u16.inj ((heldIf_inj.1 (h .adcH)).2 hv)
        cases hc : c.adc
        cases hd : d.adc
        simp_all
      tFine := fun hv => PortValue.s32.inj ((heldIf_inj.1 (h .tFine)).2 hv)
      tempC := fun hv => PortValue.fp.inj ((heldIf_inj.1 (h .tempC)).2 hv)
      tempF := fun hv => PortValue.fp.inj ((heldIf_inj.1 (h .tempF)).2 hv)
      pressPa := fun hv => PortValue.fp.inj ((heldIf_inj.1 (h .pressPa)).2 hv)
      humPct := fun hv => PortValue.fp.inj ((heldIf_inj.1 (h .humPct)).2 hv)
      windowA := sameBytes_iff.1 fun k => h (.a k)
      windowB := sameBytes_iff.1 fun k => h (.b k)
      windowD := sameBytes_iff.1 fun k => h (.d k) }

theorem Ccu.Agree.status {c d : Ccu} (h : c.Agree d) : c.status = d.status := by
  rw [Ccu.status, Ccu.status, h.calv, h.rawv, h.tv, h.pv, h.hv, h.err]

theorem Ccu.Agree.sameHeld {c d : Ccu} (h : c.Agree d) : c.SameHeld d := by
  intro r
  cases r with
  | a k => exact sameBytes_iff.2 h.windowA k
  | b k => exact sameBytes_iff.2 h.windowB k
  | d k => exact sameBytes_iff.2 h.windowD k
  | cmd => rfl
  | status => exact congrArg (some ∘ PortValue.u8) h.status
  | coef r => exact heldIf_inj.2 ⟨h.calv, fun hv => by rw [h.coef hv]⟩
  | adcP => exact heldIf_inj.2 ⟨h.rawv, fun hv => by rw [h.adc hv]⟩
  | adcT => exact heldIf_inj.2 ⟨h.rawv, fun hv => by rw [h.adc hv]⟩
  | adcH => exact heldIf_inj.2 ⟨h.rawv, fun hv => by rw [h.adc hv]⟩
  | tFine => exact heldIf_inj.2 ⟨h.tv, fun hv => by rw [h.tFine hv]⟩
  | tempC => exact heldIf_inj.2 ⟨h.tv, fun hv => by rw [h.tempC hv]⟩
  | tempF => exact heldIf_inj.2 ⟨h.tv, fun hv => by rw [h.tempF hv]⟩
  | pressPa => exact heldIf_inj.2 ⟨h.pv, fun hv => by rw [h.pressPa hv]⟩
  | humPct => exact heldIf_inj.2 ⟨h.hv, fun hv => by rw [h.humPct hv]⟩

/-! Every operation on the CCU reads under a register's valid condition only, so it takes agreeing CCUs to agreeing
ones. -/

/-- The coefficients are made of every byte of windows A and B but A[24] (40_calibration_decode.md R100, R108). -/
theorem decodeCoefficients_congr {w w' : Windows} (ha : ∀ k : Fin 26, k ≠ 24 → w.a[k] = w'.a[k])
    (hb : ∀ k : Fin 7, w.b[k] = w'.b[k]) : decodeCoefficients w = decodeCoefficients w' := by
  have hb' : w.b = w'.b := Vector.ext fun i hi => hb ⟨i, hi⟩
  have ha' : ∀ i (hi : i < 26), i ≠ 24 → w.a[i] = w'.a[i] := fun i hi hne =>
    ha ⟨i, hi⟩ (by simpa [Fin.ext_iff] using hne)
  simp [decodeCoefficients, hb', ha']

/-- A valid calibration is the same 32 bytes in both CCUs. -/
theorem Ccu.Agree.decodeCoefficients_eq {c d : Ccu} (h : c.Agree d) (hcomplete : c.win.calibrationComplete = true) :
    decodeCoefficients c.win = decodeCoefficients d.win := by
  obtain ⟨hav, hbv⟩ := (calibrationComplete_iff _).1 hcomplete
  exact decodeCoefficients_congr (fun k hk => h.windowA.byte k (hav k hk)) fun k => h.windowB.byte k (hbv k)

/-- A valid reading is the same 8 bytes in both CCUs. -/
theorem Ccu.Agree.unpackReading_eq {c d : Ccu} (h : c.Agree d) (hcomplete : c.win.dataComplete = true) :
    unpackReading c.win = unpackReading d.win := by
  have hd : c.win.d = d.win.d :=
    Vector.ext fun i hi => h.windowD.byte ⟨i, hi⟩ ((dataComplete_iff _).1 hcomplete _)
  rw [unpackReading, unpackReading, hd]

/-- The operation takes CCUs that hold the same values to CCUs that again do. -/
def Ccu.KeepsAgreement (f : Ccu → Ccu) : Prop := ∀ c d : Ccu, c.Agree d → (f c).Agree (f d)

theorem Ccu.raise_keepsAgreement (e : ErrCode) : Ccu.KeepsAgreement (·.raise e) := fun _ _ h =>
  { h with err := rfl }

theorem Ccu.clear_keepsAgreement : Ccu.KeepsAgreement Ccu.clear := fun _ _ h =>
  { h with
    calv := rfl, rawv := rfl, tv := rfl, pv := rfl, hv := rfl, err := rfl
    coef := nofun, adc := nofun, tFine := nofun, tempC := nofun, tempF := nofun, pressPa := nofun, humPct := nofun
    windowA := .cleared, windowB := .cleared, windowD := .cleared }

theorem Ccu.writeReg_keepsAgreement (v : Byte) (r : Reg) : Ccu.KeepsAgreement (·.writeReg v r) := by
  intro c d h
  cases r with
  | a k => exact { h with windowA := h.windowA.set k v }
  | b k => exact { h with windowB := h.windowB.set k v }
  | d k => exact { h with windowD := h.windowD.set k v }
  | _ => exact h

theorem Ccu.loadCalibration_keepsAgreement : Ccu.KeepsAgreement Ccu.loadCalibration := by
  intro c d h
  have hcomplete : d.win.calibrationComplete = c.win.calibrationComplete := by
    rw [Windows.calibrationComplete, Windows.calibrationComplete, h.windowA.bits, h.windowB.bits]
  obtain ⟨hcalv, heq⟩ | ⟨hcalv, hshort, heq⟩ | ⟨hcalv, hfull, heq⟩ := loadCalibration_cases c
  · have heq' : d.loadCalibration = d.raise .locked := by simp [Ccu.loadCalibration, ← h.calv, hcalv]
    rw [heq, heq']
    exact Ccu.raise_keepsAgreement .locked c d h
  · have heq' : d.loadCalibration = d.raise .short := by simp [Ccu.loadCalibration, ← h.calv, hcalv, hcomplete, hshort]
    rw [heq, heq']
    exact Ccu.raise_keepsAgreement .short c d h
  · have heq' : d.loadCalibration = d.loadCoefficients (decodeCoefficients c.win) := by
      simp [Ccu.loadCalibration, ← h.calv, hcalv, hcomplete, hfull, h.decodeCoefficients_eq hfull]
    rw [heq, heq']
    exact { h with calv := rfl, err := rfl, coef := fun _ => rfl }

theorem Ccu.loadReading_keepsAgreement : Ccu.KeepsAgreement Ccu.loadReading := by
  intro c d h
  have hcomplete : d.win.dataComplete = c.win.dataComplete := by
    rw [Windows.dataComplete, Windows.dataComplete, h.windowD.bits]
  obtain ⟨hshort, heq⟩ | ⟨hfull, heq⟩ := loadReading_cases c
  · have heq' : d.loadReading = d.raise .short := by simp [Ccu.loadReading, hcomplete, hshort]
    rw [heq, heq']
    exact Ccu.raise_keepsAgreement .short c d h
  · have heq' : d.loadReading = d.loadAdc (unpackReading c.win) := by
      simp [Ccu.loadReading, hcomplete, hfull, h.unpackReading_eq hfull]
    rw [heq, heq']
    exact
      { h with
        rawv := rfl, tv := rfl, pv := rfl, hv := rfl, err := rfl, adc := fun _ => rfl
        tFine := nofun, tempC := nofun, tempF := nofun, pressPa := nofun, humPct := nofun
        windowD := .cleared }

theorem Ccu.writeOutputs_keepsAgreement (o : Outputs) : Ccu.KeepsAgreement (·.writeOutputs o) := fun _ _ h =>
  { h with
    tv := rfl, pv := rfl, hv := rfl, err := rfl
    tFine := fun _ => rfl, tempC := fun _ => rfl, tempF := fun _ => rfl, humPct := fun _ => rfl
    pressPa := fun hpv => by
      obtain ⟨p, hp⟩ := Option.isSome_iff_exists.mp hpv
      simp [hp] }

theorem Ccu.compensate_keepsAgreement (fp : Config.Arith) : Ccu.KeepsAgreement (·.compensate fp) := by
  intro c d h
  obtain ⟨hcalv, heq⟩ | ⟨hcalv, hrawv, heq⟩ | ⟨hcalv, hrawv, heq⟩ := compensate_cases fp c
  · have heq' : d.compensate fp = d.raise .noCal := by simp [Ccu.compensate, ← h.calv, hcalv]
    simp only [heq, heq']
    exact Ccu.raise_keepsAgreement .noCal c d h
  · have heq' : d.compensate fp = d.raise .noRaw := by simp [Ccu.compensate, ← h.calv, ← h.rawv, hcalv, hrawv]
    simp only [heq, heq']
    exact Ccu.raise_keepsAgreement .noRaw c d h
  · have heq' : d.compensate fp = d.writeOutputs (compensation fp c.coef c.adc) := by
      simp [Ccu.compensate, ← h.calv, ← h.rawv, hcalv, hrawv, h.coef hcalv, h.adc hrawv]
    simp only [heq, heq']
    exact Ccu.writeOutputs_keepsAgreement _ c d h

/-! The accesses: a read returns the same in both, and every other access is one of the operations. -/

theorem memRead_indistinguishable (addr : BitVec 8) {s t : State} (h : s.Indistinguishable t) :
    (memRead addr s).Indistinguishable (memRead addr t) := by
  refine ⟨by rw [(memRead_spec addr s).1, (memRead_spec addr t).1]; exact h.ccu, ?_⟩
  unfold memRead
  rw [h.host]
  cases portMap addr with
  | none => simp only [State.reply, State.draw, h.host]
  | some r =>
    simp only [h.ccu r]
    cases t.ccu.value r <;> simp only [State.reply, State.draw, h.host]

/-- What a command does to the CCU is an operation that keeps agreement. -/
theorem command_keepsAgreement (v : Byte) :
    ∃ f, Ccu.KeepsAgreement f ∧ ∀ s, command v s = .next (s.withCcu (f s.ccu)) := by
  unfold command
  split
  case h_1 i _ =>
    cases i with
    | ldcal => exact ⟨_, Ccu.loadCalibration_keepsAgreement, fun _ => rfl⟩
    | ldraw => exact ⟨_, Ccu.loadReading_keepsAgreement, fun _ => rfl⟩
    | comp => exact ⟨_, Ccu.compensate_keepsAgreement arith, fun _ => rfl⟩
    | clr => exact ⟨_, Ccu.clear_keepsAgreement, fun _ => rfl⟩
  case h_2 => exact ⟨_, Ccu.raise_keepsAgreement .illCmd, fun _ => rfl⟩

/-- What a host write does to the CCU is an operation that keeps agreement. -/
theorem memWrite_keepsAgreement (addr : BitVec 8) (value : Nat) :
    ∃ f, Ccu.KeepsAgreement f ∧ ∀ s, memWrite addr value s = .next (s.withCcu (f s.ccu)) := by
  unfold memWrite
  split
  case h_1 => exact command_keepsAgreement (lowByte value)
  case h_2 r _ _ => exact ⟨_, Ccu.writeReg_keepsAgreement (lowByte value) r, fun _ => rfl⟩
  case h_3 => exact ⟨id, fun _ _ h => h, fun _ => rfl⟩

/-- An operation that keeps agreement keeps the states that the host cannot tell apart. -/
theorem State.Indistinguishable.withCcu {s t : State} (h : s.Indistinguishable t) {f : Ccu → Ccu}
    (hf : Ccu.KeepsAgreement f) : (s.withCcu (f s.ccu)).Indistinguishable (t.withCcu (f t.ccu)) :=
  ⟨(hf _ _ h.ccu.agree).sameHeld, h.host⟩

theorem perform_indistinguishable (x : Access) {s t s' : State} (h : s.Indistinguishable t)
    (hstep : perform x s = .next s') : ∃ t', perform x t = .next t' ∧ s'.Indistinguishable t' := by
  cases x with
  | read addr =>
    cases hstep
    exact ⟨_, rfl, memRead_indistinguishable addr h⟩
  | reset =>
    cases hstep
    exact ⟨_, rfl, h.withCcu Ccu.clear_keepsAgreement⟩
  | write addr value =>
    obtain ⟨f, hf, hwrite⟩ := memWrite_keepsAgreement addr value
    cases (hwrite s).symm.trans hstep
    exact ⟨_, hwrite t, h.withCcu hf⟩

theorem step_indistinguishable {s t s' : State} (h : s.Indistinguishable t) (hstep : step s = .next s') :
    ∃ t', step t = .next t' ∧ s'.Indistinguishable t' := by
  obtain ⟨hidle, rfl⟩ | ⟨x, rest, hpending, hperform⟩ := step_cases hstep
  · exact ⟨t, step_of_idle (h.host ▸ hidle), h⟩
  · rw [step_of_pending (h.host ▸ hpending)]
    have hrest : (s.withPending rest).Indistinguishable (t.withPending rest) :=
      ⟨h.ccu, by simp only [State.withPending, h.host]⟩
    exact perform_indistinguishable x hrest hperform

/-- Settles O13: the valid conditions are `holds`, and two states that hold the same values agree field by field on all
that an access reads. -/
theorem unheldContentsNeverMatter : Obligations.UnheldContentsNeverMatter := by
  refine ⟨fun c => ?_, fun _ _ _ h hstep => step_indistinguishable h hstep⟩
  exact ⟨c.holds_coef, c.holds_adcP, c.holds_adcT, c.holds_adcH, c.holds_tFine, c.holds_tempC, c.holds_tempF,
    c.holds_pressPa, c.holds_humPct, c.holds_status, c.holds_a, c.holds_b, c.holds_d⟩

end Sys2Proof.Machine
end

section
/-! PROOFS. The binary64 operations on finite operands: each is one rounding to nearest, ties to even, with the signs of
zero that the spec gives; the literals of the stages. -/

namespace Sys2Proof.Binary64

/-! A finite value by its sign and its magnitude. -/

theorem units_eq_sign_mul (a : F64) : units a = (if sign a then -1 else 1) * (mag a : Int) := by
  unfold units; split <;> simp

theorem mag_eq_zero_iff {a : F64} : mag a = 0 ↔ units a = 0 := by
  rw [← units_natAbs, Int.natAbs_eq_zero]

/-- The sign of a product or a quotient is the product of the signs. -/
theorem ite_bne_eq_mul (p q : Bool) :
    (if p != q then -1 else 1 : Int) = (if p then -1 else 1) * (if q then -1 else 1) := by
  cases p <;> cases q <;> rfl

/-! Each operation as a rounding of the exact result (42_compensation.md R131). -/

/-- Either zero is the rounding of 0. -/
theorem nearestEven_pack_zero (neg : Bool) (den : Nat) : NearestEven 0 den (pack neg 0) where
  finite := isFinite_pack_zero neg
  nearest x _ := by simp [units_pack_zero]
  even _ _ _ _ := by cases neg <;> decide

section Operations

variable {a b : F64}

theorem fadd_nearestEven (ha : isFinite a = true) (hb : isFinite b = true)
    (hmax : (units a + units b).natAbs ≤ maxUnits) : NearestEven (units a + units b) 1 (fadd a b) := by
  rw [fadd_finite ha hb]
  generalize units a + units b = z at hmax ⊢
  split
  case isTrue hzero => rw [hzero]; exact nearestEven_pack_zero _ 1
  case isFalse =>
    have hsigned : (if decide (z < 0) then -(z.natAbs : Int) else z.natAbs) = z := by
      simp only [decide_eq_true_eq]; split <;> omega
    have hround := round_nearestEven (decide (z < 0)) z.natAbs 1 Nat.one_pos (by rwa [Nat.one_mul])
    rwa [hsigned] at hround

theorem fsub_nearestEven (ha : isFinite a = true) (hb : isFinite b = true)
    (hmax : (units a - units b).natAbs ≤ maxUnits) : NearestEven (units a - units b) 1 (fsub a b) := by
  rw [sub_eq_add_neg, ← units_negate] at hmax ⊢
  exact fadd_nearestEven ha (by rwa [isFinite_negate]) hmax

theorem fmul_nearestEven (ha : isFinite a = true) (hb : isFinite b = true)
    (hmax : (units a * units b).natAbs ≤ scale * maxUnits) :
    NearestEven (units a * units b) scale (fmul a b) := by
  rw [Int.natAbs_mul, units_natAbs, units_natAbs] at hmax
  have hround := round_nearestEven (sign a != sign b) _ scale scale_pos hmax
  have hsigned : (if sign a != sign b then -((mag a * mag b : Nat) : Int) else (mag a * mag b : Nat)) =
      units a * units b := by
    rw [units_eq_sign_mul, units_eq_sign_mul b, mul_mul_mul_comm, ← ite_bne_eq_mul]
    split <;> push_cast <;> ring
  rwa [hsigned, ← fmul_finite ha hb] at hround

theorem fdiv_nearestEven (ha : isFinite a = true) (hb : isFinite b = true) (hb0 : units b ≠ 0)
    (hmax : (units a * scale).natAbs ≤ (units b).natAbs * maxUnits) :
    NearestEven (units a * scale * (units b).sign) (units b).natAbs (fdiv a b) := by
  have hmag : mag b ≠ 0 := mt mag_eq_zero_iff.1 hb0
  rw [Int.natAbs_mul, units_natAbs, units_natAbs, Int.natAbs_natCast, Nat.mul_comm] at hmax
  have hround := round_nearestEven (sign a != sign b) _ _ (Nat.pos_of_ne_zero hmag) hmax
  have hsign : (units b).sign = if sign b then -1 else 1 := by
    have hpos : 0 < (mag b : Int) := by omega
    rw [units]
    split
    · rw [Int.sign_neg, Int.sign_eq_one_of_pos hpos]
    · exact Int.sign_eq_one_of_pos hpos
  have hsigned : (if sign a != sign b then -((scale * mag a : Nat) : Int) else (scale * mag a : Nat)) =
      units a * scale * (units b).sign := by
    rw [hsign, units_eq_sign_mul a]
    calc _ = (if sign a != sign b then -1 else 1) * ((scale * mag a : Nat) : Int) := by split <;> ring
      _ = _ := by rw [ite_bne_eq_mul]; push_cast; ring
  rwa [hsigned, ← fdiv_finite ha hb hmag, ← units_natAbs b] at hround

end Operations

/-- Settles O52: each operation on finite operands is one rounding of its exact result, which is below the overflow
threshold. -/
theorem arithmeticIsNearestEven : Obligations.ArithmeticIsNearestEven := fun _ _ ha hb =>
  ⟨fadd_nearestEven ha hb, fsub_nearestEven ha hb, fmul_nearestEven ha hb, fdiv_nearestEven ha hb⟩

/-! The signs of zero results. -/

/-- The rounding of zero is the zero of its sign. -/
theorem round_zero (neg : Bool) (d : Nat) : round neg 0 d = pack neg 0 := by
  have hunits : roundUnits 0 d = 0 := by simp [roundUnits]
  rw [round, hunits, Nat.zero_min]

/-- A product with a zero is the zero of its sign. -/
theorem fmul_eq_pack_zero {a b : F64} (ha : isFinite a = true) (hb : isFinite b = true)
    (hzero : units a = 0 ∨ units b = 0) : fmul a b = pack (sign a != sign b) 0 := by
  have hmag : mag a * mag b = 0 := Nat.mul_eq_zero.2 (hzero.imp mag_eq_zero_iff.2 mag_eq_zero_iff.2)
  rw [fmul_finite ha hb, hmag, round_zero]

/-- The zero with the exclusive-or of two signs. -/
theorem pack_bne_zero (p q : Bool) :
    pack (p != q) 0 = if p = q then 0x0000000000000000#64 else 0x8000000000000000#64 := by
  cases p <;> cases q <;> rfl

/-- The other sign is never the same sign, so a value less itself is +0. -/
theorem fsub_self {x : F64} (hx : isFinite x = true) : fsub x x = 0x0000000000000000#64 := by
  rw [fsub, fadd_finite hx (by rwa [isFinite_negate]), units_negate, if_pos (by omega), sign_negate, Bool.and_not_self]
  rfl

/-- Settles O53: a zero result is packed with the sign that the operation computes, and no rounding changes it. -/
theorem signedZeroRules : Obligations.SignedZeroRules := by
  refine ⟨fun x hx => fsub_self hx, fun x y hx hy => ⟨fun hzero => ?product, fun hx0 hy0 => ?quotient⟩, ?sum⟩
  case product => rw [fmul_eq_pack_zero hx hy hzero, pack_bne_zero]
  case quotient =>
    rw [fdiv_finite hx hy (mt mag_eq_zero_iff.1 hy0), mag_eq_zero_iff.2 hx0, Nat.mul_zero, round_zero, pack_bne_zero]
  case sum => decide +kernel

/-! The literals (42_compensation.md R133): an integer literal is the conversion of the integer. -/

section Literals

variable {n : Int}

theorem units_flit_one (hn : n.natAbs < 2 ^ 53) : units (flit n 1) = n * scale := (fofint_exact hn).2

theorem isFinite_flit_one (hn : n.natAbs < 2 ^ 53) : isFinite (flit n 1) = true := (fofint_exact hn).1

end Literals

/-- Settles O55: each integer literal is below 2^53, so its conversion is exact. -/
theorem literalsConvert : Obligations.LiteralsConvert := by
  refine ⟨fun n hn => ?_, by decide +kernel⟩
  have hlt : n.natAbs < 2 ^ 53 := by revert n; decide
  exact ⟨units_flit_one hlt, isFinite_flit_one hlt⟩

end Sys2Proof.Binary64
end

section
/-! PROOFS. What a rounding to nearest keeps: the order against a finite value, an exact result, a power of two as a
bound. -/

namespace Sys2Proof.Binary64

/-- A significand of at most 53 bits, shifted, is within the format's range. -/
theorem mul_two_pow_le_maxUnits {k t : Nat} (hk : k < 2 ^ 53) (ht : t ≤ 2045) : k * 2 ^ t ≤ maxUnits :=
  Nat.mul_le_mul (Nat.le_pred_of_lt hk) (Nat.pow_le_pow_right (by decide) ht)

/-- A significand of at most 53 bits with a sign, shifted, is a finite value. -/
theorem exists_units_eq {m : Int} {t : Nat} (hm : m.natAbs < 2 ^ 53) (ht : t ≤ 2045) :
    ∃ x : F64, isFinite x = true ∧ units x = m * 2 ^ t := by
  obtain ⟨hfinite, hsign, hmag⟩ := mag_round_exact (decide (m < 0)) _ 1 m.natAbs t Nat.one_pos hm
    (mul_two_pow_le_maxUnits hm ht) (Nat.one_mul _).symm
  refine ⟨_, hfinite, ?_⟩
  have hsigned : (if decide (m < 0) then -1 else 1) * (m.natAbs : Int) = m := by
    simp only [decide_eq_true_eq]; split <;> omega
  rw [units_eq_sign_mul, hsign, hmag]
  push_cast [← mul_assoc]
  rw [← Int.natCast_natAbs, hsigned]

section Nearest

variable {num : Int} {den : Nat} {r x : F64} (h : NearestEven num den r) (hden : 0 < den) (hx : isFinite x = true)
include h hden hx

/-- A rounded result is not above a finite value that the exact one is not above. -/
theorem NearestEven.units_le (hle : num ≤ den * units x) : units r ≤ units x := by
  by_contra habove
  have hlt : (den : Int) * units x < den * units r := Int.mul_lt_mul_of_pos_left (by omega) (by omega)
  have hnearest := h.nearest x hx
  omega

/-- A rounded result is not below a finite value that the exact one is not below. -/
theorem NearestEven.le_units (hle : den * units x ≤ num) : units x ≤ units r := by
  by_contra hbelow
  have hlt : (den : Int) * units r < den * units x := Int.mul_lt_mul_of_pos_left (by omega) (by omega)
  have hnearest := h.nearest x hx
  omega

/-- An exact result that is a finite value is not rounded. -/
theorem NearestEven.units_eq (heq : num = den * units x) : units r = units x :=
  le_antisymm (h.units_le hden hx heq.le) (h.le_units hden hx heq.ge)

end Nearest

/-- A rounded result is no smaller than a power of two that the exact one is no smaller than. -/
theorem NearestEven.two_pow_le_mag {num : Int} {den : Nat} {r : F64} {t : Nat} (h : NearestEven num den r)
    (hden : 0 < den) (ht : t ≤ 2045) (hle : den * 2 ^ t ≤ num.natAbs) : 2 ^ t ≤ mag r := by
  obtain ⟨x, hx, hux⟩ := exists_units_eq (m := 1) (by decide) ht
  obtain ⟨y, hy, huy⟩ := exists_units_eq (m := -1) (by decide) ht
  rw [one_mul] at hux
  rw [neg_one_mul] at huy
  have hle' : (den : Int) * 2 ^ t ≤ num.natAbs := by exact_mod_cast hle
  rw [← units_natAbs]
  zify
  rcases le_total 0 num with hnum | hnum
  · have hr := h.le_units hden hx (by rw [hux]; omega)
    rw [hux] at hr
    exact hr.trans (le_abs_self _)
  · have hr := h.units_le hden hy (by rw [huy, mul_neg]; omega)
    rw [huy] at hr
    exact (le_neg.1 hr).trans (neg_le_abs _)

/-! Values with an exact count of units: what stage T computes without rounding. -/

/-- The finite value m · 2^t units. -/
structure IsExactly (m : Int) (t : Nat) (a : F64) : Prop where
  finite : isFinite a = true
  units_eq : units a = m * 2 ^ t

section IsExactly

variable {m m' num : Int} {t t' u j den : Nat} {a b r : F64}

/-- An exact result with a significand of at most 53 bits is within the format's range. -/
theorem natAbs_le_of_exact (hm : m.natAbs < 2 ^ 53) (ht : t ≤ 2045) (hnum : num = den * (m * 2 ^ t)) :
    num.natAbs ≤ den * maxUnits := by
  rw [hnum, Int.natAbs_mul, Int.natAbs_mul, Int.natAbs_pow]
  exact Nat.mul_le_mul_left den (mul_two_pow_le_maxUnits hm ht)

/-- Such a result is not rounded. -/
theorem NearestEven.isExactly (h : NearestEven num den r) (hden : 0 < den) (hm : m.natAbs < 2 ^ 53) (ht : t ≤ 2045)
    (hnum : num = den * (m * 2 ^ t)) : IsExactly m t r := by
  obtain ⟨x, hx, hux⟩ := exists_units_eq hm ht
  exact ⟨h.finite, (h.units_eq hden hx (by rw [hux, hnum])).trans hux⟩

theorem scale_eq : (scale : Int) = 2 ^ 1074 := by rw [scale, Nat.cast_pow, Nat.cast_two]

theorem isExactly_fofint (hm : m.natAbs < 2 ^ 53) : IsExactly m 1074 (fofint m) := by
  obtain ⟨hfinite, hunits⟩ := fofint_exact hm
  exact ⟨hfinite, by rw [hunits, scale_eq]⟩

/-- The same value with a longer significand. -/
theorem IsExactly.shift (h : IsExactly m (j + t) a) : IsExactly (m * 2 ^ j) t a :=
  ⟨h.finite, by rw [h.units_eq, pow_add, mul_assoc]⟩

theorem IsExactly.fsub (ha : IsExactly m t a) (hb : IsExactly m' t b) (hm : (m - m').natAbs < 2 ^ 53)
    (ht : t ≤ 2045) : IsExactly (m - m') t (fsub a b) := by
  have hexact : units a - units b = (1 : Nat) * ((m - m') * 2 ^ t) := by
    rw [ha.units_eq, hb.units_eq, Nat.cast_one, one_mul, sub_mul]
  have hmax := natAbs_le_of_exact hm ht hexact
  exact (fsub_nearestEven ha.finite hb.finite (by rwa [Nat.one_mul] at hmax)).isExactly Nat.one_pos hm ht hexact

theorem IsExactly.fmul (ha : IsExactly m t a) (hb : IsExactly m' t' b) (hm : (m * m').natAbs < 2 ^ 53)
    (hu : t + t' = 1074 + u) (hu' : u ≤ 2045) : IsExactly (m * m') u (fmul a b) := by
  have hpow : (2 : Int) ^ t * 2 ^ t' = scale * 2 ^ u := by rw [scale_eq, ← pow_add, ← pow_add, hu]
  have hexact : units a * units b = scale * (m * m' * 2 ^ u) := by
    rw [ha.units_eq, hb.units_eq]; linear_combination m * m' * hpow
  exact (fmul_nearestEven ha.finite hb.finite (natAbs_le_of_exact hm hu' hexact)).isExactly scale_pos hm hu' hexact

/-- A quotient by a power of two takes the power off the exponent. -/
theorem IsExactly.fdiv_two_pow {n : Int} (hn : n = 2 ^ j) (ha : IsExactly m (j + t) a) (hm : m.natAbs < 2 ^ 53)
    (hj : j < 53) (ht : t ≤ 2045) : IsExactly m t (fdiv a (flit n 1)) := by
  have hb : IsExactly n 1074 (flit n 1) := by
    refine isExactly_fofint ?_
    rw [hn, Int.natAbs_pow]
    exact Nat.pow_lt_pow_right (by decide) hj
  generalize flit n 1 = b at hb ⊢
  have hub : units b = 2 ^ j * scale := by rw [hb.units_eq, scale_eq, hn]
  have hpos : 0 < units b := by
    rw [hub]; exact mul_pos (pow_pos (by decide) j) (Int.natCast_pos.2 scale_pos)
  have hexact : units a * scale * (units b).sign = (units b).natAbs * (m * 2 ^ t) := by
    rw [Int.sign_eq_one_of_pos hpos, Int.natAbs_of_nonneg hpos.le, ha.units_eq, hub]; ring
  have hmax := natAbs_le_of_exact hm ht hexact
  rw [Int.sign_eq_one_of_pos hpos, mul_one] at hmax
  exact (fdiv_nearestEven ha.finite hb.finite hpos.ne' hmax).isExactly (by omega) hm ht hexact

end IsExactly

end Sys2Proof.Binary64
end

section
/-! PROOFS. Bounds: a value within a power of two, and the operations on such values. -/

namespace Sys2Proof.Binary64

/-- The value is finite and of magnitude at most 2^e. -/
structure Within (e : Nat) (a : F64) : Prop where
  finite : isFinite a = true
  mag_le : mag a ≤ scale * 2 ^ e

section Within

variable {e e' j den : Nat} {num n : Int} {a b r : F64}

theorem scale_mul_two_pow (e : Nat) : scale * 2 ^ e = 2 ^ (1074 + e) := by rw [scale, ← pow_add]

theorem scale_mul_two_pow_le_maxUnits (he : e ≤ 900) : scale * 2 ^ e ≤ maxUnits := by
  rw [scale_mul_two_pow, ← Nat.one_mul (2 ^ _)]
  exact mul_two_pow_le_maxUnits (by decide) (by omega)

/-- An exact result within a power of two is rounded to one within it. -/
theorem NearestEven.within (h : NearestEven num den r) (hden : 0 < den) (he : e ≤ 900)
    (hle : num.natAbs ≤ den * (scale * 2 ^ e)) : Within e r := by
  refine ⟨h.finite, ?_⟩
  have hpow : 1 * 2 ^ (1074 + e) = scale * 2 ^ e := by rw [scale_mul_two_pow, Nat.one_mul]
  have hmag := nearest_le (k := 1) (t := 1074 + e) hden h (by decide) (mul_two_pow_le_maxUnits (by decide) (by omega))
    (by rwa [hpow])
  rwa [hpow] at hmag

theorem Within.natAbs_units_le (h : Within e a) : (units a).natAbs ≤ scale * 2 ^ e := by
  rw [units_natAbs]; exact h.mag_le

theorem Within.mono (h : Within e a) (he : e ≤ e') : Within e' a :=
  ⟨h.finite, h.mag_le.trans (Nat.mul_le_mul_left _ (Nat.pow_le_pow_right (by decide) he))⟩

theorem within_fofint (hn : n.natAbs ≤ 2 ^ e) (he : e < 53 := by decide) : Within e (fofint n) := by
  have hlt : n.natAbs < 2 ^ 53 := hn.trans_lt (Nat.pow_lt_pow_right (by decide) he)
  obtain ⟨hfinite, hunits⟩ := fofint_exact hlt
  refine ⟨hfinite, ?_⟩
  rw [← units_natAbs, hunits, Int.natAbs_mul, Int.natAbs_natCast, Nat.mul_comm]
  exact Nat.mul_le_mul_left _ hn

theorem Within.negate (ha : Within e a) : Within e (negate a) := by
  refine ⟨(isFinite_negate a).trans ha.finite, ?_⟩
  rw [← units_natAbs, units_negate, Int.natAbs_neg, units_natAbs]
  exact ha.mag_le

/-! The exact result of each operation, its rounding, and the bound of the rounded result. -/

theorem Within.natAbs_add_le (ha : Within e a) (hb : Within e' b) :
    (units a + units b).natAbs ≤ scale * 2 ^ (max e e' + 1) := by
  have hadd := Int.natAbs_add_le (units a) (units b)
  have hua := (ha.mono (Nat.le_max_left e e')).natAbs_units_le
  have hub := (hb.mono (Nat.le_max_right e e')).natAbs_units_le
  have hpow : scale * 2 ^ (max e e' + 1) = scale * 2 ^ max e e' + scale * 2 ^ max e e' := by rw [pow_succ]; ring
  omega

theorem Within.fadd_nearestEven (ha : Within e a) (hb : Within e' b) (he : max e e' < 900 := by decide) :
    NearestEven (units a + units b) 1 (fadd a b) :=
  Binary64.fadd_nearestEven ha.finite hb.finite ((ha.natAbs_add_le hb).trans (scale_mul_two_pow_le_maxUnits he))

theorem Within.fadd (ha : Within e a) (hb : Within e' b) (he : max e e' < 900 := by decide) :
    Within (max e e' + 1) (fadd a b) :=
  (ha.fadd_nearestEven hb he).within Nat.one_pos he ((ha.natAbs_add_le hb).trans_eq (Nat.one_mul _).symm)

theorem Within.fsub (ha : Within e a) (hb : Within e' b) (he : max e e' < 900 := by decide) :
    Within (max e e' + 1) (fsub a b) := ha.fadd hb.negate he

theorem Within.natAbs_mul_le (ha : Within e a) (hb : Within e' b) :
    (units a * units b).natAbs ≤ scale * (scale * 2 ^ (e + e')) := by
  rw [Int.natAbs_mul]
  calc _ ≤ (scale * 2 ^ e) * (scale * 2 ^ e') := Nat.mul_le_mul ha.natAbs_units_le hb.natAbs_units_le
    _ = _ := by rw [pow_add]; ring

theorem Within.fmul_nearestEven (ha : Within e a) (hb : Within e' b) (he : e + e' ≤ 900 := by decide) :
    NearestEven (units a * units b) scale (fmul a b) :=
  Binary64.fmul_nearestEven ha.finite hb.finite
    ((ha.natAbs_mul_le hb).trans (Nat.mul_le_mul_left _ (scale_mul_two_pow_le_maxUnits he)))

theorem Within.fmul (ha : Within e a) (hb : Within e' b) (he : e + e' ≤ 900 := by decide) :
    Within (e + e') (fmul a b) :=
  (ha.fmul_nearestEven hb he).within scale_pos he (ha.natAbs_mul_le hb)

/-- A quotient by a value that is no smaller than 2^-j. -/
theorem Within.natAbs_div_le (ha : Within e a) (hbj : scale ≤ mag b * 2 ^ j) :
    (units a * scale).natAbs ≤ (units b).natAbs * (scale * 2 ^ (e + j)) := by
  rw [Int.natAbs_mul, Int.natAbs_natCast, units_natAbs b]
  calc _ ≤ (scale * 2 ^ e) * (mag b * 2 ^ j) := Nat.mul_le_mul ha.natAbs_units_le hbj
    _ = _ := by rw [pow_add]; ring

theorem units_ne_zero_of_scale_le (hbj : scale ≤ mag b * 2 ^ j) : units b ≠ 0 := by
  intro hzero
  rw [mag_eq_zero_iff.2 hzero, Nat.zero_mul] at hbj
  exact scale_pos.not_ge hbj

theorem Within.fdiv_nearestEven (ha : Within e a) (hb : isFinite b = true) (hbj : scale ≤ mag b * 2 ^ j)
    (he : e + j ≤ 900 := by decide) :
    NearestEven (units a * scale * (units b).sign) (units b).natAbs (fdiv a b) :=
  Binary64.fdiv_nearestEven ha.finite hb (units_ne_zero_of_scale_le hbj)
    ((ha.natAbs_div_le hbj).trans (Nat.mul_le_mul_left _ (scale_mul_two_pow_le_maxUnits he)))

theorem Within.fdiv (ha : Within e a) (hb : isFinite b = true) (hbj : scale ≤ mag b * 2 ^ j)
    (he : e + j ≤ 900 := by decide) : Within (e + j) (fdiv a b) := by
  have hb0 := units_ne_zero_of_scale_le hbj
  refine (ha.fdiv_nearestEven hb hbj he).within (Int.natAbs_pos.2 hb0) he ?_
  rw [Int.natAbs_mul, Int.natAbs_sign_of_ne_zero hb0, Nat.mul_one]
  exact ha.natAbs_div_le hbj

/-! The literals as divisors. -/

theorem scale_le_mag_flit (hn : 1 ≤ n.natAbs ∧ n.natAbs < 2 ^ 53) : scale ≤ mag (flit n 1) * 2 ^ 0 := by
  rw [pow_zero, Nat.mul_one, ← units_natAbs, units_flit_one hn.2, Int.natAbs_mul, Int.natAbs_natCast]
  exact Nat.le_mul_of_pos_left _ hn.1

theorem Within.fdiv_flit (ha : Within e a) (hn : 1 ≤ n.natAbs ∧ n.natAbs < 2 ^ 53 := by decide)
    (he : e ≤ 900 := by decide) : Within e (Binary64.fdiv a (flit n 1)) :=
  ha.fdiv (isFinite_flit_one hn.2) (scale_le_mag_flit hn) he

theorem IsExactly.within {m : Int} {t k : Nat} (h : IsExactly m t a) (hm : m.natAbs ≤ 2 ^ k) (he : k + t = 1074 + e) :
    Within e a := by
  refine ⟨h.finite, ?_⟩
  rw [← units_natAbs, h.units_eq, Int.natAbs_mul, Int.natAbs_pow, scale_mul_two_pow, ← he, pow_add]
  exact Nat.mul_le_mul_right _ hm

end Within

/-! The registers as operands of the stages. -/

theorem within_toNat {w : Nat} (x : BitVec w) (hw : w < 53 := by decide) : Within w (fofint x.toNat) :=
  within_fofint (by simpa using x.isLt.le) hw

theorem within_toInt {w : Nat} (x : BitVec w) (hw : w < 53 := by decide) : Within w (fofint x.toInt) := by
  refine within_fofint ?_ hw
  have hlt := x.isLt
  rw [BitVec.toInt_eq_toNat_cond]
  generalize 2 ^ w = n at hlt ⊢
  split <;> omega

end Sys2Proof.Binary64
end

section
/-! PROOFS. Stage T: what it computes without rounding, its two roundings, and the bounds of t_fine and the
temperatures. -/

namespace Sys2Proof.Machine
open Sys2Proof.Binary64

/-- The operands of stage T are of their registers' types (10_state.md R21, R23). -/
structure StageTOperands (adcT t1 t2 t3 : Int) : Prop where
  adcT : 0 ≤ adcT ∧ adcT ≤ 1048575
  t1 : 0 ≤ t1 ∧ t1 ≤ 65535
  t2 : -32768 ≤ t2 ∧ t2 ≤ 32767
  t3 : -32768 ≤ t3 ∧ t3 ≤ 32767

theorem stageTOperands_of_registers (k : CoefFile) (r : AdcFile) :
    StageTOperands r.t.toNat k.t1.toNat k.t2.toInt k.t3.toInt := by
  have hadcT := r.t.isLt
  have ht1 := k.t1.isLt
  have signed : ∀ x : BitVec 16, -32768 ≤ x.toInt ∧ x.toInt ≤ 32767 := fun x => by
    have hlt := BitVec.toInt_lt (x := x)
    have hle := BitVec.le_toInt x
    omega
  exact ⟨by omega, by omega, signed _, signed _⟩

section StageT

variable {adcT t1 t2 t3 : Int}

theorem stageT_snd (fp : Config.Arith) (adcT t1 t2 t3 : Int) :
    (stageT fp adcT t1 t2 t3).2 = fp.ffloor (stageT fp adcT t1 t2 t3).1 := rfl

/-- The exact difference ADC_T/2^(j+4) − T1/2^j, which stage T takes with j = 10 and with j = 13. -/
theorem isExactly_difference {n n' : Int} {t j : Nat} (hn : n = 2 ^ (j + 4)) (hn' : n' = 2 ^ j)
    (h : StageTOperands adcT t1 t2 t3) (hj : j ≤ 13) (ht : t + (j + 4) = 1074) :
    IsExactly (adcT - 16 * t1) t (fsub (fdiv (fofint adcT) (flit n 1)) (fdiv (fofint t1) (flit n' 1))) := by
  obtain ⟨hadcT, ht1, -, -⟩ := h
  have ha : IsExactly adcT (j + 4 + t) (fofint adcT) := by
    rw [Nat.add_comm, ht]; exact isExactly_fofint (by omega)
  have hb : IsExactly t1 (j + (4 + t)) (fofint t1) := by
    rw [show j + (4 + t) = 1074 by omega]; exact isExactly_fofint (by omega)
  have hquot := (hb.fdiv_two_pow hn' (by omega) (by omega) (by omega)).shift
  have hdiff := (ha.fdiv_two_pow hn (by omega) (by omega) (by omega)).fsub hquot (by omega) (by omega)
  rwa [show adcT - t1 * 2 ^ 4 = adcT - 16 * t1 by ring] at hdiff

/-- ADC_T − 16·T1 and its square are small (the bounds of 42_compensation.md section 5). -/
theorem StageTOperands.difference_le (h : StageTOperands adcT t1 t2 t3) :
    (adcT - 16 * t1).natAbs ≤ 1048575 := by
  obtain ⟨hadcT, ht1, -, -⟩ := h; omega

/-- Stage T is the sum of a var1 that is exact and the product of an exact square with T3 (42_compensation.md R134). -/
theorem stageT_fst_eq (h : StageTOperands adcT t1 t2 t3) :
    ∃ var1 square : F64, IsExactly ((adcT - 16 * t1) * t2) 1060 var1 ∧
      IsExactly ((adcT - 16 * t1) * (adcT - 16 * t1)) 1040 square ∧
      (stageT arith adcT t1 t2 t3).1 = fadd var1 (fmul square (fofint t3)) := by
  have hc := isExactly_difference (n := 16384) (n' := 1024) (j := 10) (t := 1060) (by norm_num) (by norm_num) h
    (by omega) (by omega)
  have hd := isExactly_difference (n := 131072) (n' := 8192) (j := 13) (t := 1057) (by norm_num) (by norm_num) h
    (by omega) (by omega)
  have hdiff := h.difference_le
  obtain ⟨-, -, ht2, -⟩ := h
  have hvar1 : ((adcT - 16 * t1) * t2).natAbs < 2 ^ 53 := by
    rw [Int.natAbs_mul]; exact (Nat.mul_le_mul hdiff (by omega : t2.natAbs ≤ 32768)).trans_lt (by decide)
  have hsquare : ((adcT - 16 * t1) * (adcT - 16 * t1)).natAbs < 2 ^ 53 := by
    rw [Int.natAbs_mul]; exact (Nat.mul_le_mul hdiff hdiff).trans_lt (by decide)
  refine ⟨_, _, hc.fmul (isExactly_fofint (by omega)) hvar1 (by omega) (by omega),
    hd.fmul hd hsquare (by omega) (by omega), ?_⟩
  simp only [stageT, lit, arith_fadd, arith_fsub, arith_fmul, arith_fdiv, arith_fofint, arith_flit]

/-- The two roundings of stage T: var2 once, then the sum s; and both results are bounded. -/
theorem stageT_roundings (h : StageTOperands adcT t1 t2 t3) :
    ∃ var2 : F64, Within 21 var2 ∧ Within 22 (stageT arith adcT t1 t2 t3).1 ∧
      NearestEven ((adcT - 16 * t1) ^ 2 * t3 * scale) (2 ^ 34) var2 ∧
      NearestEven ((adcT - 16 * t1) * t2 * scale + 2 ^ 14 * units var2) (2 ^ 14) (stageT arith adcT t1 t2 t3).1 := by
  obtain ⟨var1, square, hvar1, hsquare, hs⟩ := stageT_fst_eq h
  have hdiff := h.difference_le
  obtain ⟨-, -, ht2, ht3⟩ := h
  have wsquare : Within 6 square := hsquare.within (k := 40) (by
    rw [Int.natAbs_mul]; exact (Nat.mul_le_mul hdiff hdiff).trans (by decide)) (by omega)
  have wt3 : Within 15 (fofint t3) := within_fofint (by omega)
  have wvar1 : Within 21 var1 := hvar1.within (k := 35) (by
    rw [Int.natAbs_mul]; exact (Nat.mul_le_mul hdiff (by omega : t2.natAbs ≤ 32768)).trans (by decide)) (by omega)
  have wvar2 := wsquare.fmul wt3
  have hscale : (scale : Int) = 2 ^ 1040 * 2 ^ 34 := by rw [scale_eq, ← pow_add]
  have hscale' : (scale : Int) = 2 ^ 1060 * 2 ^ 14 := by rw [scale_eq, ← pow_add]
  rw [hs]
  refine ⟨_, wvar2, wvar1.fadd wvar2, ?_, ?_⟩
  · refine nearest_congr scale_pos (by decide) ?_ (wsquare.fmul_nearestEven wt3)
    rw [hsquare.units_eq, (isExactly_fofint (by omega)).units_eq, ← scale_eq]
    generalize (2 : Int) ^ 1040 = p at hscale ⊢
    push_cast
    linear_combination (-(adcT - 16 * t1) ^ 2 * t3 * scale) * hscale
  · refine nearest_congr Nat.one_pos (by decide) ?_ (wvar1.fadd_nearestEven wvar2)
    rw [hvar1.units_eq]
    generalize (2 : Int) ^ 1060 = p at hscale' ⊢
    push_cast
    linear_combination (-(adcT - 16 * t1) * t2) * hscale'

/-- t_fine is the floor of a finite s. -/
theorem stageT_floor (h : StageTOperands adcT t1 t2 t3) :
    (stageT arith adcT t1 t2 t3).2 * scale ≤ units (stageT arith adcT t1 t2 t3).1 ∧
      units (stageT arith adcT t1 t2 t3).1 < ((stageT arith adcT t1 t2 t3).2 + 1) * scale := by
  obtain ⟨-, -, hs, -, -⟩ := stageT_roundings h
  rw [stageT_snd, arith_ffloor]
  exact conversionsAreExact.2 _ hs.finite

theorem tempCOf_arith (s : F64) : tempCOf arith s = fdiv s (flit 5120 1) := by
  rw [tempCOf, lit, arith_fdiv, arith_flit]

/-- TEMP_C is the rounded s/5120 (42_compensation.md R136). -/
theorem tempCOf_nearestEven {s : F64} {e : Nat} (hs : Within e s) (he : e ≤ 900) :
    NearestEven (units s) 5120 (tempCOf arith s) := by
  have hround := hs.fdiv_nearestEven (isFinite_flit_one (n := 5120) (by decide)) (scale_le_mag_flit (by decide)) he
  have hpos : (0 : Int) < 5120 * scale := mul_pos (by decide) (Int.natCast_pos.2 scale_pos)
  rw [units_flit_one (by decide), Int.sign_eq_one_of_pos hpos, mul_one] at hround
  rw [tempCOf_arith]
  refine nearest_congr (by omega) (by decide) ?_ hround
  rw [Int.natAbs_of_nonneg hpos.le]
  push_cast
  ring

end StageT

/-- Settles O33: var1 is exact, var2 and the sum are one rounding each, t_fine is a floor and TEMP_C one rounded
quotient. -/
theorem stageTRoundsExactFormula : Obligations.StageTRoundsExactFormula := by
  intro adcT t1 t2 t3 hadcT hadcT' ht1 ht1' ht2 ht2' ht3 ht3'
  have h : StageTOperands adcT t1 t2 t3 := ⟨⟨hadcT, hadcT'⟩, ⟨ht1, ht1'⟩, ⟨ht2, ht2'⟩, ⟨ht3, ht3'⟩⟩
  obtain ⟨var2, -, hs, hvar2, hsum⟩ := stageT_roundings h
  obtain ⟨hfloor, hfloor'⟩ := stageT_floor h
  exact ⟨var2, hvar2, hsum, hfloor, hfloor', tempCOf_nearestEven hs (by decide)⟩

/-! The bounds of stage T. -/

/-- s is at most 4194303: var2 is at most 64 · 32767, and var1 less than 2^21 (42_compensation.md section 5). -/
theorem stageT_fst_units_le {adcT t1 t2 t3 : Int} (h : StageTOperands adcT t1 t2 t3) :
    units (stageT arith adcT t1 t2 t3).1 ≤ 4194303 * scale := by
  obtain ⟨var2, -, -, hvar2, hsum⟩ := stageT_roundings h
  have hdiff := h.difference_le
  obtain ⟨-, -, ht2, ht3⟩ := h
  generalize adcT - 16 * t1 = δ at *
  have hscale : (0 : Int) < scale := Int.natCast_pos.2 scale_pos
  have hδ : -1048575 ≤ δ ∧ δ ≤ 1048575 := by omega
  have hsquare : δ ^ 2 * t3 ≤ 2 ^ 34 * 2097088 := by nlinarith [sq_nonneg δ]
  have hproduct : δ * t2 ≤ 2 ^ 14 * 2097215 := by nlinarith
  obtain ⟨hx, hux⟩ := fofint_exact (i := 2097088) (by decide)
  obtain ⟨hy, huy⟩ := fofint_exact (i := 4194303) (by decide)
  generalize (scale : Int) = sc at *
  have hvar2' : units var2 ≤ 2097088 * sc := by
    rw [← hux]
    refine hvar2.units_le (by decide) hx ?_
    rw [hux]
    calc δ ^ 2 * t3 * sc ≤ 2 ^ 34 * 2097088 * sc := mul_le_mul_of_nonneg_right hsquare hscale.le
      _ = _ := by push_cast; ring
  rw [← huy]
  refine hsum.units_le (by decide) hy ?_
  rw [huy]
  calc δ * t2 * sc + 2 ^ 14 * units var2
      ≤ 2 ^ 14 * 2097215 * sc + 2 ^ 14 * (2097088 * sc) :=
        add_le_add (mul_le_mul_of_nonneg_right hproduct hscale.le) (mul_le_mul_of_nonneg_left hvar2' (by decide))
    _ = _ := by push_cast; ring

/-- t_fine is within 22 bits and a sign. -/
theorem stageTOf_snd_range (k : CoefFile) (r : AdcFile) :
    -4194304 ≤ (stageTOf arith k r).2 ∧ (stageTOf arith k r).2 ≤ 4194303 := by
  have h := stageTOperands_of_registers k r
  obtain ⟨-, -, hs, -, -⟩ := stageT_roundings h
  have hmag := hs.natAbs_units_le
  obtain ⟨hfloor, hfloor'⟩ := stageT_floor h
  have hle := stageT_fst_units_le h
  rw [stageTOf]
  generalize stageT arith r.t.toNat k.t1.toNat k.t2.toInt k.t3.toInt = st at *
  have hscale : (0 : Int) < scale := Int.natCast_pos.2 scale_pos
  constructor
  · have hlt : -4194304 * (scale : Int) < (st.2 + 1) * scale := by omega
    have := lt_of_mul_lt_mul_right hlt hscale.le
    omega
  · exact le_of_mul_le_mul_right (hfloor.trans hle) hscale

theorem within_stageTOf_fst (k : CoefFile) (r : AdcFile) : Within 22 (stageTOf arith k r).1 := by
  obtain ⟨-, -, hs, -, -⟩ := stageT_roundings (stageTOperands_of_registers k r)
  exact hs

theorem within_temperatureC (k : CoefFile) (r : AdcFile) : Within 22 (temperatureC arith k r) := by
  rw [temperatureC, tempCOf_arith]
  exact (within_stageTOf_fst k r).fdiv_flit

/-- The literal 1.8 is at most 2. -/
theorem within_flit_18_10 : Within 1 (flit 18 10) := by
  constructor <;> decide +kernel

theorem within_temperatureF (k : CoefFile) (r : AdcFile) : Within 24 (temperatureF arith k r) := by
  rw [temperatureF, tempFOf, lit, arith_fadd, arith_fmul, arith_flit]
  exact ((within_temperatureC k r).fmul within_flit_18_10).fadd (within_fofint (e := 5) (by decide))

/-- Settles O34: s is at most 4194303 and no less than −2^22, and every operation after it is on bounded values. -/
theorem stageTIsBounded : Obligations.StageTIsBounded := by
  intro k r
  obtain ⟨hmin, hmax⟩ := stageTOf_snd_range k r
  refine ⟨hmin, hmax, ?_, (within_temperatureC k r).finite, (within_temperatureF k r).finite⟩
  rw [BitVec.toInt_ofInt, Int.bmod_eq_of_le] <;> omega

end Sys2Proof.Machine
end

section
/-! PROOFS. Stages P and H: the denominator, the guarded pressure and the humidity are finite. -/

namespace Sys2Proof.Binary64

/-- An exact sum of zero is a zero. -/
theorem units_fadd_eq_zero {a b : F64} (ha : isFinite a = true) (hb : isFinite b = true)
    (hzero : units a + units b = 0) : units (fadd a b) = 0 := by
  rw [fadd_finite ha hb, if_pos hzero, units_pack_zero]

/-- A product with a zero is a zero. -/
theorem units_fmul_eq_zero {a b : F64} (ha : isFinite a = true) (hb : isFinite b = true)
    (hzero : units a = 0 ∨ units b = 0) : units (fmul a b) = 0 := by
  rw [fmul_eq_pack_zero ha hb hzero, units_pack_zero]

/-- Where 1 + q is not zero it is no smaller than 2^-53: a q near −1 has no bits below 2^-53, and the sum takes none
away. -/
theorem two_pow_le_mag_one_add {q : F64} {e : Nat} (hq : Within e q) (he : e < 900)
    (hne : units (fadd (flit 1 1) q) ≠ 0) : 2 ^ 1021 ≤ mag (fadd (flit 1 1) q) := by
  have hone : Within 0 (flit 1 1) := within_fofint (by decide)
  have hround := hone.fadd_nearestEven hq (by omega)
  have hunits : units (flit 1 1) = scale := (units_flit_one (by decide)).trans (one_mul _)
  rw [hunits] at hround
  refine hround.two_pow_le_mag Nat.one_pos (by decide) ?_
  rw [Nat.one_mul]
  have hscale : scale = 2 * 2 ^ 1073 := by rw [scale, ← pow_succ']
  by_cases hsmall : mag q ≤ 2 ^ 1073
  · have hpow : 2 ^ 1021 ≤ 2 ^ 1073 := Nat.pow_le_pow_right (by decide) (by decide)
    rw [← units_natAbs] at hsmall
    generalize 2 ^ 1073 = big at *
    omega
  · obtain ⟨k, t, hmag, hk⟩ := mag_form q
    have ht : 1021 ≤ t := by
      by_contra hlt
      refine hsmall ?_
      calc mag q = k * 2 ^ t := hmag
        _ ≤ 2 ^ 53 * 2 ^ 1020 := Nat.mul_le_mul hk.le (Nat.pow_le_pow_right (by decide) (by omega))
        _ = 2 ^ 1073 := by rw [← pow_add]
    have hdvd_q : ((2 ^ 1021 : Nat) : Int) ∣ units q := by
      rw [Int.natCast_dvd, units_natAbs, hmag]
      exact (pow_dvd_pow 2 ht).mul_left k
    have hdvd_one : ((2 ^ 1021 : Nat) : Int) ∣ scale := Int.natCast_dvd_natCast.2 (pow_dvd_pow 2 (by decide))
    have hsum : (scale : Int) + units q ≠ 0 := fun hzero =>
      hne (units_fadd_eq_zero hone.finite hq.finite (by rw [hunits, hzero]))
    exact Nat.le_of_dvd (Int.natAbs_pos.2 hsum) (Int.natCast_dvd.1 (hdvd_one.add hdvd_q))

/-- Equality with the literal 0. -/
theorem feq_flit_zero {a : F64} (ha : isFinite a = true) : feq a (flit 0 1) = decide (units a = 0) := by
  rw [feq, flit_zero, isNan_of_finite ha, units_zero]
  rfl

end Sys2Proof.Binary64

namespace Sys2Proof.Machine
open Sys2Proof.Binary64

/-- The value that stage P adds to 1, q17 of 42_compensation.md R138. -/
def pressQ17 (fp : Config.Arith) (tFine p2 p3 : Int) : F64 :=
  let q1 := pressQ1 fp tFine
  fp.fdiv (fp.fdiv (fp.fadd (fp.fdiv (fp.fmul (fp.fmul (fp.fofint p3) q1) q1) (lit fp 524288))
    (fp.fmul (fp.fofint p2) q1)) (lit fp 524288)) (lit fp 32768)

theorem pressDen_eq (fp : Config.Arith) (tFine p1 p2 p3 : Int) :
    pressDen fp tFine p1 p2 p3 =
      fp.fmul (fp.fadd (lit fp 1) (pressQ17 fp tFine p2 p3)) (fp.fofint p1) := rfl

theorem lit_arith (n : Int) : lit arith n = flit n 1 := by rw [lit, arith_flit]

theorem within_pressQ1 {tFine : Int} (h : tFine.natAbs ≤ 2 ^ 22) : Within 23 (pressQ1 arith tFine) := by
  rw [pressQ1, lit_arith, lit_arith, arith_fsub, arith_fdiv, arith_fofint]
  exact (within_fofint h).fdiv_flit.fsub (within_fofint (e := 16) (by decide))

theorem within_pressQ17 {tFine : Int} (h : tFine.natAbs ≤ 2 ^ 22) (p2 p3 : BitVec 16) :
    Within 63 (pressQ17 arith tFine p2.toInt p3.toInt) := by
  simp only [pressQ17, lit_arith, arith_fadd, arith_fmul, arith_fdiv, arith_fofint]
  have hq1 := within_pressQ1 h
  have hq13 := (((within_toInt p3).fmul hq1).fmul hq1).fdiv_flit (n := 524288)
  have hq14 := (within_toInt p2).fmul hq1
  exact (hq13.fadd hq14).fdiv_flit.fdiv_flit

theorem natAbs_stageTOf_snd_le (k : CoefFile) (r : AdcFile) : (stageTOf arith k r).2.natAbs ≤ 2 ^ 22 := by
  obtain ⟨hmin, hmax⟩ := stageTOf_snd_range k r
  omega

/-- The denominator is the product of 1 + q17 and P1 (42_compensation.md R138). -/
theorem denominator_eq (k : CoefFile) (r : AdcFile) :
    ∃ q17, Within 63 q17 ∧ denominator arith k r = fmul (fadd (flit 1 1) q17) (fofint k.p1.toNat) := by
  refine ⟨_, within_pressQ17 (natAbs_stageTOf_snd_le k r) k.p2 k.p3, ?_⟩
  rw [denominator, pressDen_eq, lit_arith, arith_fmul, arith_fadd, arith_fofint]

theorem within_one_add {q : F64} (hq : Within 63 q) : Within 64 (fadd (flit 1 1) q) :=
  (within_fofint (e := 0) (n := 1) (by decide)).fadd hq

theorem isFinite_denominator (k : CoefFile) (r : AdcFile) : isFinite (denominator arith k r) = true := by
  obtain ⟨q17, hq17, heq⟩ := denominator_eq k r
  rw [heq]
  exact ((within_one_add hq17).fmul (within_toNat k.p1)).finite

theorem denominatorIsZero_eq (k : CoefFile) (r : AdcFile) :
    denominatorIsZero arith k r = decide (units (denominator arith k r) = 0) := by
  rw [denominatorIsZero, lit_arith, arith_feq, feq_flit_zero (isFinite_denominator k r)]

theorem units_fofint_p1 (k : CoefFile) : units (fofint k.p1.toNat) = k.p1.toNat * scale := by
  have hp1 := k.p1.isLt
  exact (fofint_exact (by omega)).2

/-- Settles O37: the denominator is a product with P1. -/
theorem denominatorIsZeroForZeroP1 : Obligations.DenominatorIsZeroForZeroP1 := by
  intro k r hp1
  obtain ⟨q17, hq17, heq⟩ := denominator_eq k r
  have hzero : units (fofint k.p1.toNat) = 0 := by rw [units_fofint_p1, hp1]; exact zero_mul _
  rw [denominatorIsZero_eq, heq]
  exact decide_eq_true (units_fmul_eq_zero (within_one_add hq17).finite (within_toNat k.p1).finite (.inr hzero))

/-- A denominator that is not zero is no smaller than 2^-53: 1 + q17 is not, and P1 is at least 1. -/
theorem scale_le_mag_denominator {k : CoefFile} {r : AdcFile} (h : denominatorIsZero arith k r = false) :
    scale ≤ mag (denominator arith k r) * 2 ^ 53 := by
  rw [denominatorIsZero_eq, decide_eq_false_iff_not] at h
  obtain ⟨q17, hq17, heq⟩ := denominator_eq k r
  rw [heq] at h ⊢
  have hfactor := within_one_add hq17
  have hp1 := within_toNat k.p1
  have hfactor0 : units (fadd (flit 1 1) q17) ≠ 0 := fun hzero =>
    h (units_fmul_eq_zero hfactor.finite hp1.finite (.inl hzero))
  have hpos : 1 ≤ k.p1.toNat := by
    by_contra hzero
    refine h (units_fmul_eq_zero hfactor.finite hp1.finite (.inr ?_))
    rw [units_fofint_p1, Nat.eq_zero_of_not_pos hzero, Nat.cast_zero, zero_mul]
  have hmag := two_pow_le_mag_one_add hq17 (by decide) hfactor0
  have hden : 2 ^ 1021 ≤ mag (fmul (fadd (flit 1 1) q17) (fofint k.p1.toNat)) := by
    refine (hfactor.fmul_nearestEven hp1).two_pow_le_mag scale_pos (by decide) ?_
    rw [Int.natAbs_mul, units_natAbs, units_fofint_p1, Int.natAbs_mul, Int.natAbs_natCast, Int.natAbs_natCast]
    calc scale * 2 ^ 1021 = 2 ^ 1021 * (1 * scale) := by rw [Nat.one_mul, Nat.mul_comm]
      _ ≤ _ := Nat.mul_le_mul hmag (Nat.mul_le_mul_right _ hpos)
  calc scale = 2 ^ 1021 * 2 ^ 53 := by rw [scale, ← pow_add]
    _ ≤ _ := Nat.mul_le_mul_right _ hden

/-- Settles O35: the quotient by the denominator is at most 2^53 times the bounded dividend, so that every operation of
the stage stays far below the overflow threshold. -/
theorem guardedPressureIsFinite : Obligations.GuardedPressureIsFinite := by
  intro k r hden
  have hfinite := isFinite_denominator k r
  have hlarge := scale_le_mag_denominator hden
  have hq1 := within_pressQ1 (natAbs_stageTOf_snd_le k r)
  rw [pressure]
  generalize denominator arith k r = den at hfinite hlarge
  simp only [pressPoly, lit_arith, arith_fadd, arith_fsub, arith_fmul, arith_fdiv, arith_fofint]
  have hq4 := ((hq1.fmul hq1).fmul (within_toInt k.p6)).fdiv_flit (n := 32768)
  have hq6 := (hq1.fmul (within_toInt k.p5)).fmul (within_fofint (e := 1) (n := 2) (by decide))
  have hq8 := (hq4.fadd hq6).fdiv_flit (n := 4)
  have hq9 := (within_toInt k.p4).fmul (within_fofint (e := 16) (n := 65536) (by decide))
  have hq20 := (hq8.fadd hq9).fdiv_flit (n := 4096)
  have hq19 := (within_fofint (e := 20) (n := 1048576) (by decide)).fsub (within_toNat r.p)
  have hq22 := (hq19.fsub hq20).fmul (within_fofint (e := 13) (n := 6250) (by decide))
  have hq23 := hq22.fdiv hfinite hlarge
  have hq26 := (((within_toInt k.p9).fmul hq23).fmul hq23).fdiv_flit (n := 2147483648)
  have hq28 := (hq23.fmul (within_toInt k.p8)).fdiv_flit (n := 32768)
  have hq31 := ((hq26.fadd hq28).fadd (within_toInt k.p7)).fdiv_flit (n := 16)
  exact (hq23.fadd hq31).finite

/-- The humidity before the clamp is finite: it is made of bounded values by operations that divide by literals only. -/
theorem isFinite_humPoly {tFine : Int} (h : tFine.natAbs ≤ 2 ^ 22) (adcH : BitVec 16) (h1 h3 h6 : BitVec 8)
    (h2 h4 h5 : BitVec 16) :
    isFinite (humPoly arith tFine adcH.toNat h1.toNat h2.toInt h3.toNat h4.toInt h5.toInt h6.toInt) = true := by
  simp only [humPoly, lit_arith, arith_fadd, arith_fsub, arith_fmul, arith_fdiv, arith_fofint]
  have hone : Within 0 (flit 1 1) := within_fofint (by decide)
  have hg1 := (within_fofint h).fsub (within_fofint (e := 17) (n := 76800) (by decide))
  have hg2 := (within_toInt h4).fmul (within_fofint (e := 6) (n := 64) (by decide))
  have hg4 := ((within_toInt h5).fdiv_flit (n := 16384)).fmul hg1
  have hg6 := (within_toNat adcH).fsub (hg2.fadd hg4)
  have hg9 := ((within_toInt h6).fdiv_flit (n := 67108864)).fmul hg1
  have hg12 := hone.fadd (((within_toNat h3).fdiv_flit (n := 67108864)).fmul hg1)
  have hg15 := ((within_toInt h2).fdiv_flit (n := 65536)).fmul (hone.fadd (hg9.fmul hg12))
  have hg16 := hg6.fmul hg15
  have hg19 := hone.fsub (((within_toNat h1).fmul hg16).fdiv_flit (n := 524288))
  exact (hg16.fmul hg19).finite

/-- Settles O36: what the clamp is given is finite, so no NaN. -/
theorem humidityIsInRange : Obligations.HumidityIsInRange := by
  intro k r
  have hfinite := isFinite_humPoly (natAbs_stageTOf_snd_le k r) r.h k.h1 k.h3 k.h6 k.h2 k.h4 k.h5
  obtain ⟨-, -, -, hmin, hmax, hclamped⟩ := clampToClosedInterval _ (isNan_of_finite hfinite)
  exact ⟨hclamped, hmin, hmax⟩

end Sys2Proof.Machine
end

section
/-! PROOFS. The invariants of the CCU: what every operation on it keeps, every step keeps. -/

namespace Sys2Proof.Machine
open Sys2Proof.Binary64

/-- Every operation that an access can perform on the CCU keeps P, LDCAL and COMP where their tests are passed. -/
structure KeptByOperations (P : Ccu → Prop) : Prop where
  clear : ∀ c, P c → P c.clear
  writeReg : ∀ c v r, P c → P (c.writeReg v r)
  raise : ∀ c e, P c → P (c.raise e)
  loadCoefficients : ∀ c, P c → c.calv = false → P (c.loadCoefficients (decodeCoefficients c.win))
  loadAdc : ∀ c, P c → P (c.loadAdc (unpackReading c.win))
  writeOutputs : ∀ c, P c → c.calv = true → c.rawv = true → P (c.writeOutputs (compensation arith c.coef c.adc))

section KeptByOperations

variable {P : Ccu → Prop} (hP : KeptByOperations P)
include hP

theorem KeptByOperations.loadCalibration {c : Ccu} (hc : P c) : P c.loadCalibration := by
  obtain ⟨-, heq⟩ | ⟨-, -, heq⟩ | ⟨hcalv, -, heq⟩ := loadCalibration_cases c <;> rw [heq]
  · exact hP.raise c .locked hc
  · exact hP.raise c .short hc
  · exact hP.loadCoefficients c hc hcalv

theorem KeptByOperations.loadReading {c : Ccu} (hc : P c) : P c.loadReading := by
  obtain ⟨-, heq⟩ | ⟨-, heq⟩ := loadReading_cases c <;> rw [heq]
  · exact hP.raise c .short hc
  · exact hP.loadAdc c hc

theorem KeptByOperations.compensate {c : Ccu} (hc : P c) : P (c.compensate arith) := by
  obtain ⟨-, heq⟩ | ⟨-, -, heq⟩ | ⟨hcalv, hrawv, heq⟩ := compensate_cases arith c <;> rw [heq]
  · exact hP.raise c .noCal hc
  · exact hP.raise c .noRaw hc
  · exact hP.writeOutputs c hc hcalv hrawv

theorem KeptByOperations.perform {x : Access} {s t : State} (hs : P s.ccu) (hstep : perform x s = .next t) :
    P t.ccu := by
  rcases perform_cases hstep with
    ⟨addr, -, rfl⟩ | ⟨-, rfl⟩ | ⟨-, value, r, -, -, -, rfl⟩ | ⟨-, -, -, -, rfl⟩ | ⟨-, rfl⟩ | ⟨-, rfl⟩ | ⟨-, rfl⟩ |
    ⟨-, rfl⟩ | ⟨-, -, rfl⟩
  · rwa [(memRead_spec addr s).1]
  · exact hP.clear _ hs
  · exact hP.writeReg _ (lowByte value) r hs
  · exact hs
  · exact hP.loadCalibration hs
  · exact hP.loadReading hs
  · exact hP.compensate hs
  · exact hP.clear _ hs
  · exact hP.raise _ .illCmd hs

theorem KeptByOperations.step {s t : State} (hs : P s.ccu) (hstep : step s = .next t) : P t.ccu := by
  obtain ⟨-, rfl⟩ | ⟨x, rest, -, hperform⟩ := step_cases hstep
  · exact hs
  · exact hP.perform (s := s.withPending rest) hs hperform

end KeptByOperations

/-! The invariant of the flags and outputs. -/

/-- Code 7 is reserved (10_state.md R31). -/
theorem ErrCode.code_ne_seven (e : ErrCode) : e.code ≠ 7#3 := by cases e <;> decide

/-- With no output valid nothing is said of the outputs. -/
theorem Ccu.inv_of_no_outputs {c : Ccu} (htv : c.tv = false) (hpv : c.pv = false) (hhv : c.hv = false)
    (herr : c.err ≠ 7#3) (hpacked : c.PackedInRange) : c.Inv where
  flags := by constructor <;> simp [htv, hpv, hhv, herr]
  outputs := by constructor <;> simp [htv, hpv, hhv]
  packed := hpacked

theorem Ccu.Inv.raise {c : Ccu} (h : c.Inv) (e : ErrCode) : (c.raise e).Inv where
  flags := { h.flags with err := e.code_ne_seven }
  outputs := { h.outputs with }
  packed := h.packed

theorem Ccu.Inv.writeReg {c : Ccu} (h : c.Inv) (v : Byte) (r : Reg) : (c.writeReg v r).Inv := by
  rw [writeReg_eq]
  exact ⟨{ h.flags with }, { h.outputs with }, h.packed⟩

/-- Without the calibration no output is valid. -/
theorem Ccu.Inv.no_outputs_of_no_calibration {c : Ccu} (h : c.Inv) (hcalv : c.calv = false) :
    c.tv = false ∧ c.pv = false ∧ c.hv = false := by
  have htv : c.tv = false := Bool.eq_false_iff.2 fun htv => by simp [h.flags.calibrated htv] at hcalv
  exact ⟨htv, Bool.eq_false_iff.2 fun hpv => by simp [h.flags.pressure hpv] at htv, h.flags.stages ▸ htv⟩

/-- A 16-bit pattern whose signed value is in 0..4095 is that value. -/
theorem toNat_le_of_toInt_range {x : BitVec 16} (hmin : 0 ≤ x.toInt) (hmax : x.toInt ≤ 4095) : x.toNat ≤ 4095 := by
  rw [BitVec.toInt_eq_toNat_cond] at hmin hmax
  have hlt := x.isLt
  split at hmax <;> omega

/-- The decoder gives H4 and H5 in 0..4095 (90_conflicts.md C2). -/
theorem decodeCoefficients_packed (w : Windows) :
    (decodeCoefficients w).h4.toNat ≤ 4095 ∧ (decodeCoefficients w).h5.toNat ≤ 4095 :=
  ⟨toNat_le_of_toInt_range (by rw [decodeCoefficients, toInt_ofInt_h4]; omega) (toInt_ofInt_h4_le ..),
   toNat_le_of_toInt_range (by rw [decodeCoefficients, toInt_ofInt_h5]; omega) (toInt_ofInt_h5_le ..)⟩

/-- What COMP writes are the stages of the current coefficients and reading. -/
theorem Ccu.Inv.writeOutputs {c : Ccu} (h : c.Inv) (hcalv : c.calv = true) (hrawv : c.rawv = true) :
    (c.writeOutputs (compensation arith c.coef c.adc)).Inv where
  flags := ⟨rfl, fun _ => rfl, fun _ => hcalv, fun _ => hrawv, ErrCode.code_ne_seven _⟩
  outputs :=
    { tFine := fun _ => rfl, tempC := fun _ => rfl, tempF := fun _ => rfl, humPct := fun _ => rfl
      guard := fun _ => compensation_press_isSome ..
      pressPa := fun hpv => by
        rw [Ccu.writeOutputs_pv, compensation_press_isSome, Bool.not_eq_true'] at hpv
        exact (Ccu.writeOutputs_of_press_some (compensation_press_of_nonzero _ _ _ hpv)).2.2 }
  packed := h.packed

theorem Ccu.inv_keptByOperations : KeptByOperations Ccu.Inv where
  clear _ _ := Ccu.inv_of_no_outputs rfl rfl rfl (by simp) nofun
  writeReg _ v r h := h.writeReg v r
  raise _ e h := h.raise e
  loadCoefficients c h hcalv := by
    obtain ⟨htv, hpv, hhv⟩ := h.no_outputs_of_no_calibration hcalv
    exact Ccu.inv_of_no_outputs htv hpv hhv (by simp) fun _ => decodeCoefficients_packed c.win
  loadAdc _ h := Ccu.inv_of_no_outputs rfl rfl rfl (by simp) h.packed
  writeOutputs _ h := h.writeOutputs

/-- Settles O49: every operation keeps the invariant, LDCAL since no output is valid without the calibration. -/
theorem stepKeepsInv : Obligations.StepKeepsInv := fun _ _ => Ccu.inv_keptByOperations.step

/-- Settles O48: at reset no register holds a value. -/
theorem resetMeetsInv : Obligations.ResetMeetsInv := Ccu.inv_of_no_outputs rfl rfl rfl (by decide) nofun

/-! The bounds of the outputs. -/

theorem Ccu.outputsBounded_of_no_outputs {c : Ccu} (htv : c.tv = false) (hpv : c.pv = false) (hhv : c.hv = false) :
    c.OutputsBounded := by
  constructor <;> intro hvalid <;> simp [htv, hpv, hhv] at hvalid

theorem Ccu.OutputsBounded.writeReg {c : Ccu} (h : c.OutputsBounded) (v : Byte) (r : Reg) :
    (c.writeReg v r).OutputsBounded := by
  rw [writeReg_eq]
  exact { h with }

/-- What COMP writes is bounded, whatever the coefficients and the reading (42_compensation.md section 5). -/
theorem Ccu.writeOutputs_outputsBounded (c : Ccu) (k : CoefFile) (r : AdcFile) :
    (c.writeOutputs (compensation arith k r)).OutputsBounded := by
  obtain ⟨hmin, hmax, htFine, htempC, htempF⟩ := stageTIsBounded k r
  obtain ⟨hhumFinite, hhumMin, hhumMax⟩ := humidityIsInRange k r
  exact
    { tFine := fun _ => by
        rw [Ccu.writeOutputs_tFine, compensation_tFine, htFine]; exact ⟨hmin, hmax⟩
      tempC := fun _ => htempC
      tempF := fun _ => htempF
      pressPa := fun hpv => by
        rw [Ccu.writeOutputs_pv, compensation_press_isSome, Bool.not_eq_true'] at hpv
        rw [(Ccu.writeOutputs_of_press_some (compensation_press_of_nonzero _ _ _ hpv)).2.2]
        exact guardedPressureIsFinite k r hpv
      humFinite := fun _ => hhumFinite
      humRange := fun _ => ⟨hhumMin, hhumMax⟩ }

theorem Ccu.outputsBounded_keptByOperations : KeptByOperations Ccu.OutputsBounded where
  clear _ _ := Ccu.outputsBounded_of_no_outputs rfl rfl rfl
  writeReg _ v r h := h.writeReg v r
  raise _ _ h := { h with }
  loadCoefficients _ h _ := { h with }
  loadAdc _ _ := Ccu.outputsBounded_of_no_outputs rfl rfl rfl
  writeOutputs c _ _ _ := c.writeOutputs_outputsBounded c.coef c.adc

/-- Settles O51: COMP alone writes the outputs, and what it writes is bounded. -/
theorem stepKeepsBounds : Obligations.StepKeepsBounds := fun _ _ => Ccu.outputsBounded_keptByOperations.step

/-- Settles O50: at reset no output is valid. -/
theorem resetMeetsBounds : Obligations.ResetMeetsBounds := Ccu.outputsBounded_of_no_outputs rfl rfl rfl

end Sys2Proof.Machine
end

section
/-! PROOFS. The step: the decoder and its opcodes, the access it performs, a run of accesses, and that none stops the
machine. -/

namespace Sys2Proof.Machine

/-- Settles O4: the words are the encodings of the four commands, and any other value is refused. -/
theorem opcodeWordsDecode : Obligations.OpcodeWordsDecode := by
  refine ⟨(decode_ok_iff _ .ldcal).2 rfl, (decode_ok_iff _ .ldraw).2 rfl, (decode_ok_iff _ .comp).2 rfl,
    (decode_ok_iff _ .clr).2 rfl, fun v hldcal hldraw hcomp hclr => decode_reserved v fun i hi => ?_⟩
  subst hi
  cases i with
  | ldcal => exact hldcal rfl
  | ldraw => exact hldraw rfl
  | comp => exact hcomp rfl
  | clr => exact hclr rfl

/-- Settles O5: both directions are the decoder's inversion. -/
theorem decodeAndEncodeAgree : Obligations.DecodeAndEncodeAgree :=
  ⟨fun i => (decode_ok_iff _ i).2 rfl, fun v i h => ((decode_ok_iff v i).1 h).symm⟩

/-- A write to CMD of a value whose low byte decodes runs the decoded command (43_control.md R162). -/
theorem perform_write_decoded {addr : BitVec 8} {value : Nat} {i : Instr} (hmap : portMap addr = some .cmd)
    (hi : decode (lowByte value) = .ok i) (s : State) : perform (.write addr value) s = exec i s := by
  simp only [perform, memWrite, hmap, command, hi]

theorem lowByte_encode (i : Instr) : lowByte ((encode i).toNat % 2 ^ 8) = encode i := by
  cases i <;> rfl

/-- Settles O3: the step performs the oldest access, and the placed word is the oldest access. -/
theorem stepRunsDecodedCommand : Obligations.StepRunsDecodedCommand := by
  refine ⟨fun s x rest => step_of_pending, fun s addr value rest i hpending hmap hi => ?_, fun s i => ?_,
    fun s => step_of_idle⟩
  · rw [step_of_pending hpending, perform_write_decoded hmap hi]
  · have hi : decode (lowByte ((encode i).toNat % 2 ^ 8)) = .ok i := by
      rw [lowByte_encode]; exact (decode_ok_iff _ i).2 rfl
    exact (step_of_pending rfl).trans (perform_write_decoded (portMap_addr .cmd) hi s)

/-- No step stops the machine. -/
theorem step_next (s : State) : ∃ t, step s = .next t := by
  cases hpending : s.host.pending with
  | nil => exact ⟨s, step_of_idle hpending⟩
  | cons x rest => rw [step_of_pending hpending]; exact perform_next x _

/-- Each of the three ends of a command leaves the code of a result in ERR (60_exceptions.md R170). -/
theorem Ccu.CommandEnd.err_eq_code {c d : Ccu} (h : c.CommandEnd d) : ∃ e : ErrCode, d.err = e.code := by
  cases h with
  | success hok => exact ⟨.ok, hok⟩
  | raised e he heq => exact ⟨e, by rw [heq, Ccu.raise_err]⟩
  | noPressure hpress heq => exact ⟨.div0, by rw [heq]; exact (Ccu.writeOutputs_of_press_none hpress).2.1⟩

/-- Settles O7: a step waits or performs an access, which always has a next state; a command ends in one of its three
ways. -/
theorem neverStops : Obligations.NeverStops := by
  refine ⟨step_next, fun v s => ?_⟩
  obtain ⟨d, hcommand, hend⟩ := command_end v s
  obtain ⟨e, herr⟩ := hend.err_eq_code
  exact ⟨_, e, hcommand, herr⟩

/-! A run of accesses. -/

/-- A read returns its value whatever is still to come. -/
theorem memRead_withPending (addr : BitVec 8) (s : State) (q : List Access) :
    memRead addr (s.withPending q) = (memRead addr s).withPending q := by
  simp only [memRead, State.withPending_ccu, State.withPending_draws]
  cases portMap addr with
  | none => rfl
  | some r =>
    dsimp only
    cases s.ccu.value r <;> rfl

/-- No access depends on those still to come, or changes them. -/
theorem perform_withPending {x : Access} {s t : State} (hstep : perform x s = .next t) (q : List Access) :
    perform x (s.withPending q) = .next (t.withPending q) := by
  cases x with
  | read addr =>
    cases hstep
    exact congrArg Host.Outcome.next (memRead_withPending addr s q)
  | reset =>
    cases hstep
    rfl
  | write addr value =>
    obtain ⟨f, -, hwrite⟩ := memWrite_keepsAgreement addr value
    cases (hwrite s).symm.trans hstep
    exact hwrite (s.withPending q)

/-- Settles O8, by induction on the list: the step performs its head, and the accesses behind it stay to come. -/
theorem runIsFoldOfAccesses : Obligations.RunIsFoldOfAccesses := by
  intro xs rest s
  induction xs generalizing s with
  | nil => rfl
  | cons x xs ih =>
    obtain ⟨t, ht⟩ := perform_next x s
    have hstep : core.step (s.withPending (x :: xs ++ rest)) = .next (t.withPending (xs ++ rest)) :=
      (step_of_pending (s := s.withPending (x :: xs ++ rest)) rfl).trans (perform_withPending ht (xs ++ rest))
    simp only [List.length_cons, Host.Core.run, hstep, performAll, perform_withPending ht rest]
    exact ih t

end Sys2Proof.Machine
end

section
/-! PROOFS. The port: the map of its addresses, what a read returns, and the accesses of the host script. -/

namespace Sys2Proof.Machine

/-- Settles O9: each row of the table is a register's own address, and the gaps are checked address by address. -/
theorem portMapTable : Obligations.PortMapTable :=
  ⟨fun k => Nat.zero_add _ ▸ portMap_addr (.a k), fun k => portMap_addr (.b k), fun k => portMap_addr (.d k),
   portMap_addr .cmd, portMap_addr .status,
   portMap_addr (.coef .t1), portMap_addr (.coef .t2), portMap_addr (.coef .t3),
   portMap_addr (.coef .p1), portMap_addr (.coef .p2), portMap_addr (.coef .p3), portMap_addr (.coef .p4),
   portMap_addr (.coef .p5), portMap_addr (.coef .p6), portMap_addr (.coef .p7), portMap_addr (.coef .p8),
   portMap_addr (.coef .p9),
   portMap_addr (.coef .h1), portMap_addr (.coef .h2), portMap_addr (.coef .h3), portMap_addr (.coef .h4),
   portMap_addr (.coef .h5), portMap_addr (.coef .h6),
   portMap_addr .adcP, portMap_addr .adcT, portMap_addr .adcH,
   portMap_addr .tFine, portMap_addr .tempC, portMap_addr .tempF, portMap_addr .pressPa, portMap_addr .humPct,
   by decide +kernel⟩

/-- Settles O10: an address that names a register is that register's own address. -/
theorem portMapIsInjective : Obligations.PortMapIsInjective :=
  ⟨portMap_addr, fun x y r hx hy => (addr_of_portMap x r hx).symm.trans (addr_of_portMap y r hy)⟩

/-! A host read. -/

theorem heldIf_of_valid {b : Bool} (hb : b = true) (v : PortValue) : heldIf b v = some v :=
  (heldIf_eq_some b v v).2 ⟨hb, rfl⟩

/-- A read at a register's address returns the value that the register holds, and with it the integer that the value
stands for. -/
theorem memRead_addr {addr : BitVec 8} {s : State} {v : PortValue}
    (hv : ∀ r ∈ portMap addr, ∀ x ∈ s.ccu.value r, v = x) (r : Reg) (x : PortValue) (haddr : addr = r.addr)
    (hx : s.ccu.value r = some x) : v = x ∧ integerOf v = integerOf x := by
  have hvx : v = x := hv r (haddr ▸ portMap_addr r) x hx
  exact ⟨hvx, hvx ▸ rfl⟩

/-- Settles O12: the value returned is the one that the register at the address holds, register by register. -/
theorem hostReadReturnsHeldValue : Obligations.HostReadReturnsHeldValue := by
  refine ⟨fun s addr => ?_, fun _ => rfl⟩
  obtain ⟨hccu, hpending, v, hreplies, hv⟩ := memRead_spec addr s
  have hread := memRead_addr hv
  refine ⟨_, v, rfl, hccu, hpending, hreplies, fun r x hr hx => hv r hr x hx, fun h => (hread .status _ h rfl).1,
    fun k h hk => ?a, fun k h hk => ?b, fun k h hk => ?d, fun hcalv => ?coef, fun hrawv => ?adc, fun htv => ?stageT,
    fun hpv h => (hread .pressPa _ h (heldIf_of_valid hpv _)).1,
    fun hhv h => (hread .humPct _ h (heldIf_of_valid hhv _)).1⟩
  case a =>
    have haddr : addr = Reg.addr (.a k) := BitVec.eq_of_toNat_eq (by rw [h, Reg.addr_a_toNat, Nat.zero_add])
    exact (hread (.a k) _ haddr (heldIf_of_valid hk _)).1
  case b =>
    have haddr : addr = Reg.addr (.b k) := BitVec.eq_of_toNat_eq (by rw [h, Reg.addr_b_toNat])
    exact (hread (.b k) _ haddr (heldIf_of_valid hk _)).1
  case d =>
    have haddr : addr = Reg.addr (.d k) := BitVec.eq_of_toNat_eq (by rw [h, Reg.addr_d_toNat])
    exact (hread (.d k) _ haddr (heldIf_of_valid hk _)).1
  case coef =>
    have hcoef (r : Coef) (h : addr = Reg.addr (.coef r)) :
        v = s.ccu.coef.value r ∧ integerOf v = integerOf (s.ccu.coef.value r) :=
      hread (.coef r) _ h (heldIf_of_valid hcalv _)
    simp only [List.forall_mem_cons]
    exact
      ⟨⟨hcoef .t1, hcoef .p1, nofun⟩,
       ⟨hcoef .t2, hcoef .t3, hcoef .p2, hcoef .p3, hcoef .p4, hcoef .p5, hcoef .p6, hcoef .p7, hcoef .p8, hcoef .p9,
        hcoef .h2, hcoef .h4, hcoef .h5, nofun⟩,
       ⟨hcoef .h1, hcoef .h3, nofun⟩, hcoef .h6⟩
  case adc =>
    simp only [List.forall_mem_cons]
    exact
      ⟨⟨fun h => hread .adcP _ h (heldIf_of_valid hrawv _), fun h => hread .adcT _ h (heldIf_of_valid hrawv _), nofun⟩,
       fun h => hread .adcH _ h (heldIf_of_valid hrawv _)⟩
  case stageT =>
    exact ⟨fun h => hread .tFine _ h (heldIf_of_valid htv _), fun h => (hread .tempC _ h (heldIf_of_valid htv _)).1,
      fun h => (hread .tempF _ h (heldIf_of_valid htv _)).1⟩

/-! The host script. -/

theorem writesFrom_length (start : Nat) (bytes : List Byte) : (writesFrom start bytes).length = bytes.length := by
  rw [writesFrom_eq, List.length_mapIdx]

theorem writesFrom_getElem? {bytes : List Byte} {k : Nat} {b : Byte} (hk : bytes[k]? = some b) (start : Nat) :
    (writesFrom start bytes)[k]? = some (.write (BitVec.ofNat 8 (start + k)) b.toNat) := by
  rw [writesFrom_eq, List.getElem?_mapIdx, hk, Option.map_some]

/-- The k-th address of a fill that is no longer than its window names the window's k-th byte. -/
theorem portMap_of_fill {n k start : Nat} [NeZero n] {bytes : List Byte} {b : Byte} (hk : bytes[k]? = some b)
    (hwf : decide (bytes.length ≤ n) = true) (window : Fin n → Reg)
    (haddr : ∀ j, (window j).addr = BitVec.ofNat 8 (start + j.val)) :
    portMap (BitVec.ofNat 8 (start + k)) = some (window (Fin.ofNat n k)) := by
  have hlt : k < n := (List.getElem?_eq_some_iff.1 hk).1.trans_le (of_decide_eq_true hwf)
  have hval : (Fin.ofNat n k).val = k := Nat.mod_eq_of_lt hlt
  rw [← portMap_addr, haddr, hval]

/-- Settles O15: every line but the fills expands by definition, and a fill writes its k-th byte to the k-th address of
its window. -/
theorem scriptLinesExpand : Obligations.ScriptLinesExpand :=
  ⟨fun _ _ => rfl, rfl, rfl, rfl, rfl, fun _ => rfl, fun _ => rfl, fun r => ⟨r.addr, rfl, portMap_addr r⟩, rfl,
   fun _ =>
    ⟨writesFrom_length _ _, writesFrom_length _ _, writesFrom_length _ _, fun _ _ hk =>
      ⟨writesFrom_getElem? hk _, writesFrom_getElem? hk _, writesFrom_getElem? hk _,
       fun hwf => portMap_of_fill hk hwf .a fun j => congrArg (BitVec.ofNat 8) (Nat.zero_add j.val).symm,
       fun hwf => portMap_of_fill hk hwf .b fun _ => rfl,
       fun hwf => portMap_of_fill hk hwf .d fun _ => rfl⟩⟩,
   fun _ _ => rfl, fun _ => rfl⟩

end Sys2Proof.Machine
end

section
/-! PROOFS. The packed and the paired byte forms: each value and the bits it comes from. -/

namespace Sys2Proof.Machine

/-- A pattern of two fields is the sum of the low one and the weighted high one. -/
theorem toNat_append_eq {m n : Nat} (hi : BitVec m) (lo : BitVec n) :
    (hi ++ lo).toNat = 2 ^ n * hi.toNat + lo.toNat := by
  rw [BitVec.toNat_append, ← Nat.shiftLeft_add_eq_or_of_lt lo.isLt, Nat.shiftLeft_eq, Nat.mul_comm]

theorem toNat_lowNibble (b : Byte) : (b.extractLsb' 0 4).toNat = b.toNat % 16 := by
  simp [BitVec.extractLsb'_toNat]

theorem toNat_highNibble (b : Byte) : (b.extractLsb' 4 4).toNat = b.toNat / 16 := by
  have hb := b.isLt
  rw [BitVec.extractLsb'_toNat, Nat.shiftRight_eq_div_pow]
  omega

/-- Settles O18: the 12 bits are a byte and a nibble, of weights 16 and 1. -/
theorem packedHumidityLaw : Obligations.PackedHumidityLaw := by
  refine ⟨fun b3 b4 => ?_, fun b4 b5 => ?_, fun n b3 b4 hn => ?_, fun n b4 b5 hn => ?_⟩
  · rw [h4_eq, toNat_append_eq, toNat_lowNibble]
    rfl
  · rw [h5_eq, toNat_append_eq, toNat_highNibble, Nat.add_comm]
    rfl
  · rw [h4_eq]; omega
  · have hb4 := b4.isLt
    rw [h5_eq]; omega

/-- Settles O22: the pair is the two bytes of the value's 16-bit pattern. -/
theorem pairDecodeIsBijective : Obligations.PairDecodeIsBijective := by
  intro v hmin hmax
  obtain ⟨n, hn⟩ : ∃ n : Nat, (n : Int) = v % 65536 := ⟨(v % 65536).toNat, by omega⟩
  refine ⟨BitVec.ofNat 8 n, BitVec.ofNat 8 (n / 256), ?_, fun lo' hi' h => ?_⟩
  · unfold s16le u16le
    simp only [BitVec.toNat_ofNat]
    split <;> omega
  · have hlo := lo'.isLt
    have hhi := hi'.isLt
    have hpair : lo'.toNat + 256 * hi'.toNat = n := by
      unfold s16le u16le at h
      split at h <;> omega
    exact ⟨BitVec.eq_of_toNat_eq (by rw [BitVec.toNat_ofNat]; omega),
      BitVec.eq_of_toNat_eq (by rw [BitVec.toNat_ofNat]; omega)⟩

/-- Settles O25: the 20 bits are two bytes and a nibble, of weights 4096, 16 and 1. -/
theorem adc20Law : Obligations.Adc20Law := by
  refine ⟨fun msb lsb xlsb => ?_, fun n msb lsb xlsb hn => ?_⟩
  · rw [adc20_eq, toNat_append_eq, toNat_append_eq, toNat_highNibble]
    omega
  · have hmsb := msb.isLt
    have hlsb := lsb.isLt
    have hxlsb := xlsb.isLt
    rw [adc20_eq]; omega

end Sys2Proof.Machine
end

section
/-! PROOFS. The commands: the reading that LDRAW unpacks, the errors of LDCAL, the byte that no command decodes, CLR,
the first command of a session, and the frames. -/

namespace Sys2Proof.Machine
open Sys2Proof.Binary64

/-- Settles O20: CALV is tested before the windows. -/
theorem ldcalErrors : Obligations.LdcalErrors := fun _ => ⟨exec_ldcal_of_calv, exec_ldcal_of_missing⟩

/-! LDRAW. -/

theorem toNat_ofNat_adc20 (msb lsb xlsb : Byte) :
    (BitVec.ofNat 20 (adc20 msb lsb xlsb)).toNat = msb.toNat * 4096 + lsb.toNat * 16 + xlsb.toNat / 16 := by
  have hmsb := msb.isLt
  have hlsb := lsb.isLt
  have hxlsb := xlsb.isLt
  rw [BitVec.toNat_ofNat, adc20_eq]
  omega

theorem toNat_ofNat_adc16 (msb lsb : Byte) : (BitVec.ofNat 16 (adc16 msb lsb)).toNat = msb.toNat * 256 + lsb.toNat := by
  rw [adc16_eq_u16le, toNat_ofNat_u16le, Nat.add_comm]

/-- Settles O26: LDRAW stores what `unpackReading` makes of window D, and each ADC register reads back as the value of
its bytes. -/
theorem ldrawUnpacksReading : Obligations.LdrawUnpacksReading := fun s hcomplete =>
  ⟨_, exec_ldraw_of_complete hcomplete,
    ⟨toNat_ofNat_adc20 .., toNat_ofNat_adc20 .., toNat_ofNat_adc16 ..⟩, fun k => by simp, rfl⟩

/-! A[24] and AV[24]. -/

/-- The CCU with another byte in A[24] and another valid bit AV[24]. -/
def Ccu.withUndecoded (x : Byte) (valid : Bool) (c : Ccu) : Ccu :=
  { c with win := { c.win with a := c.win.a.set 24 x, av := c.win.av.set 24 valid } }

section Undecoded

variable (x : Byte) (valid : Bool) (c : Ccu)

/-- LDCAL's test of the windows leaves AV[24] out (40_calibration_decode.md R108). -/
theorem Ccu.withUndecoded_calibrationComplete :
    (c.withUndecoded x valid).win.calibrationComplete = c.win.calibrationComplete := by
  have hav : ∀ k : Fin 26, k ≠ 24 → (c.withUndecoded x valid).win.av[k] = c.win.av[k] := fun k hk => by
    have hne : 24 ≠ k.val := fun h => hk (Fin.ext h.symm)
    simp [Ccu.withUndecoded, Vector.getElem_set_ne, hne]
  rw [Bool.eq_iff_iff, calibrationComplete_iff, calibrationComplete_iff]
  exact and_congr (forall₂_congr fun k hk => by rw [hav k hk]) Iff.rfl

/-- The coefficients are made without A[24]. -/
theorem Ccu.withUndecoded_decodeCoefficients :
    decodeCoefficients (c.withUndecoded x valid).win = decodeCoefficients c.win :=
  decodeCoefficients_congr (fun k hk => by
    have hne : 24 ≠ k.val := fun h => hk (Fin.ext h.symm)
    simp [Ccu.withUndecoded, Vector.getElem_set_ne, hne]) fun _ => rfl

theorem Ccu.withUndecoded_loadCalibration :
    (c.withUndecoded x valid).loadCalibration = c.loadCalibration.withUndecoded x valid := by
  have hcalv : (c.withUndecoded x valid).calv = c.calv := rfl
  simp only [Ccu.loadCalibration, hcalv, Ccu.withUndecoded_calibrationComplete, Ccu.withUndecoded_decodeCoefficients]
  split
  · rfl
  · split <;> rfl

theorem Ccu.withUndecoded_loadReading :
    (c.withUndecoded x valid).loadReading = c.loadReading.withUndecoded x valid := by
  have hcomplete : (c.withUndecoded x valid).win.dataComplete = c.win.dataComplete := rfl
  simp only [Ccu.loadReading, hcomplete]
  split <;> rfl

theorem Ccu.withUndecoded_compensate (fp : Config.Arith) :
    (c.withUndecoded x valid).compensate fp = (c.compensate fp).withUndecoded x valid := by
  have hcalv : (c.withUndecoded x valid).calv = c.calv := rfl
  have hrawv : (c.withUndecoded x valid).rawv = c.rawv := rfl
  simp only [Ccu.compensate, hcalv, hrawv]
  split
  · rfl
  · split <;> rfl

end Undecoded

/-- Settles O21: LDCAL tests and decodes without A[24], and LDRAW and COMP do not read window A. -/
theorem undecodedByteIsIgnored : Obligations.UndecodedByteIsIgnored := by
  intro i s t x valid hexec
  cases i <;> cases hexec
  case ldcal => exact congrArg (Host.Outcome.next ∘ s.withCcu) (s.ccu.withUndecoded_loadCalibration x valid)
  case ldraw => exact congrArg (Host.Outcome.next ∘ s.withCcu) (s.ccu.withUndecoded_loadReading x valid)
  case comp => exact congrArg (Host.Outcome.next ∘ s.withCcu) (s.ccu.withUndecoded_compensate x valid arith)
  case clr => rfl

/-! CLR and the cleared session. -/

/-- Settles O38: CLR is the clear of the reset event. -/
theorem clrEndsSession : Obligations.ClrEndsSession := by
  refine ⟨fun _ => rfl, exec_clr_eq_resetEvent, fun s t r hexec hr => ?_, rfl⟩
  cases hexec
  exact s.ccu.clear_holds hr

/-- Two cleared CCUs hold the same: STATUS 0, and nothing else. -/
theorem Ccu.Cleared.sameHeld {c d : Ccu} (hc : c.Cleared) (hd : d.Cleared) : c.SameHeld d := by
  intro r
  by_cases hr : r = .status
  · subst hr
    exact congrArg (some ∘ PortValue.u8) (hc.status.trans hd.status.symm)
  · have hnone : ∀ {e : Ccu}, e.Cleared → e.value r = none := fun he => by simpa [Ccu.holds] using he.holds r hr
    rw [hnone hc, hnone hd]

/-- Settles O39: in a cleared session the windows are short, the calibration is missing, and CLR has nothing to
clear. -/
theorem firstCommandOfSession : Obligations.FirstCommandOfSession := fun s hs =>
  ⟨exec_ldcal_of_missing hs.calv (.inr ⟨0, hs.bv 0⟩), exec_ldraw_of_missing (hs.dv 0), exec_comp_of_noCal hs.calv,
   ⟨_, exec_clr_eq_resetEvent s, resetEvent_cleared s, (resetEvent_cleared s).sameHeld hs⟩,
   fun _ hv => command_reserved (encode_ne_of_decode_error hv) s⟩

/-! The frames: what each operation that a command can end in leaves unchanged. -/

/-- Settles O42: LDCAL raises an error, which changes ERR, or loads the coefficients, which leaves no error. -/
theorem ldcalFrame : Obligations.LdcalFrame := by
  intro s t hexec
  cases hexec
  simp only [State.withCcu_ccu, State.withCcu_host]
  obtain ⟨-, heq⟩ | ⟨-, -, heq⟩ | ⟨-, -, heq⟩ := loadCalibration_cases s.ccu <;> simp [heq]

/-- Settles O43: LDRAW raises an error, which changes ERR, or loads the reading, which leaves no error. -/
theorem ldrawFrame : Obligations.LdrawFrame := by
  intro s t hexec
  cases hexec
  simp only [State.withCcu_ccu, State.withCcu_host]
  obtain ⟨-, heq⟩ | ⟨-, heq⟩ := loadReading_cases s.ccu <;> simp [heq]

/-- Settles O44: COMP raises an error or writes outputs, whatever they are. -/
theorem compFrame : Obligations.CompFrame := by
  intro s t hexec
  cases hexec
  simp only [State.withCcu_ccu, State.withCcu_host]
  obtain ⟨e, heq⟩ | ⟨o, heq⟩ := compensate_writes arith s.ccu <;> simp [heq]

/-- Settles O45: a clear touches flags, valid bits and ERR alone. -/
theorem clrFrame : Obligations.ClrFrame := by
  intro s t hexec
  cases hexec
  exact ⟨rfl, rfl, rfl, rfl, rfl, rfl, rfl, rfl, rfl, rfl, rfl⟩

end Sys2Proof.Machine
end

section
/-! PROOFS. Who writes and who clears: everything an access can do to the CCU, with what it takes to do it. -/

namespace Sys2Proof.Machine
open Sys2Proof.Binary64

theorem Access.Issues.writesTo_cmd {x : Access} {i : Instr} (h : x.Issues i) : x.WritesTo .cmd := by
  obtain ⟨addr, value, hx, hmap, -⟩ := h
  exact ⟨addr, value, hx, hmap⟩

/-- The access x takes the CCU from c to the last argument: one constructor per kind of change, each with what the
access is and the tests that were passed. -/
inductive Access.Effect (x : Access) (c : Ccu) : Ccu → Prop
  | nothing : x.Effect c c
  | clear (hx : x.EndsSession) : x.Effect c c.clear
  /-- Each window byte and its valid bit stay, unless the access writes the byte. -/
  | windows (w : Windows)
      (ha : ∀ k : Fin 26, (x.WritesTo (.a k) ∧ w.av[k] = true) ∨ (w.a[k] = c.win.a[k] ∧ w.av[k] = c.win.av[k]))
      (hb : ∀ k : Fin 7, (x.WritesTo (.b k) ∧ w.bv[k] = true) ∨ (w.b[k] = c.win.b[k] ∧ w.bv[k] = c.win.bv[k]))
      (hd : ∀ k : Fin 8, (x.WritesTo (.d k) ∧ w.dv[k] = true) ∨ (w.d[k] = c.win.d[k] ∧ w.dv[k] = c.win.dv[k])) :
      x.Effect c { c with win := w }
  | raise (e : ErrCode) (hx : x.WritesTo .cmd) : x.Effect c (c.raise e)
  | loadCoefficients (k : CoefFile) (hx : x.Issues .ldcal) (hcalv : c.calv = false) : x.Effect c (c.loadCoefficients k)
  | loadAdc (r : AdcFile) (hx : x.Issues .ldraw) (hcomplete : ∀ k : Fin 8, c.win.dv[k] = true) :
      x.Effect c (c.loadAdc r)
  | writeOutputs (hx : x.Issues .comp) : x.Effect c (c.writeOutputs (compensation arith c.coef c.adc))

theorem writeReg_effect {x : Access} {r : Reg} (hx : x.WritesTo r) (c : Ccu) (v : Byte) :
    x.Effect c (c.writeReg v r) := by
  rw [writeReg_eq]
  exact .windows _
    (fun k => (writeReg_a c v r k).imp_left fun ⟨heq, hvalid⟩ => ⟨heq ▸ hx, hvalid⟩)
    (fun k => (writeReg_b c v r k).imp_left fun ⟨heq, hvalid⟩ => ⟨heq ▸ hx, hvalid⟩)
    (fun k => (writeReg_d c v r k).imp_left fun ⟨heq, hvalid⟩ => ⟨heq ▸ hx, hvalid⟩)

/-- Every access has one of these effects. -/
theorem perform_effect {x : Access} {s t : State} (hstep : perform x s = .next t) : x.Effect s.ccu t.ccu := by
  rcases perform_cases hstep with
    ⟨addr, -, rfl⟩ | ⟨hx, rfl⟩ | ⟨addr, value, r, hx, hmap, -, rfl⟩ | ⟨-, -, -, -, rfl⟩ | ⟨hx, rfl⟩ | ⟨hx, rfl⟩ |
    ⟨hx, rfl⟩ | ⟨hx, rfl⟩ | ⟨hx, -, rfl⟩
  · rw [(memRead_spec addr s).1]; exact .nothing
  · exact .clear (.inl hx)
  · exact writeReg_effect ⟨addr, value, hx, hmap⟩ s.ccu (lowByte value)
  · exact .nothing
  · simp only [State.withCcu_ccu]
    obtain ⟨-, heq⟩ | ⟨-, -, heq⟩ | ⟨hcalv, -, heq⟩ := loadCalibration_cases s.ccu <;> rw [heq]
    · exact .raise _ hx.writesTo_cmd
    · exact .raise _ hx.writesTo_cmd
    · exact .loadCoefficients _ hx hcalv
  · simp only [State.withCcu_ccu]
    obtain ⟨-, heq⟩ | ⟨hcomplete, heq⟩ := loadReading_cases s.ccu <;> rw [heq]
    · exact .raise _ hx.writesTo_cmd
    · exact .loadAdc _ hx ((dataComplete_iff _).1 hcomplete)
  · simp only [State.withCcu_ccu]
    obtain ⟨-, heq⟩ | ⟨-, -, heq⟩ | ⟨-, -, heq⟩ := compensate_cases arith s.ccu <;> rw [heq]
    · exact .raise _ hx.writesTo_cmd
    · exact .raise _ hx.writesTo_cmd
    · exact .writeOutputs hx
  · exact .clear (.inr hx)
  · exact .raise _ hx

/-! A byte and its valid bit under a write that may or may not be to them. -/

section WindowByte

variable {written : Prop} {byte byte' : Byte} {valid valid' : Bool}
  (h : (written ∧ valid' = true) ∨ (byte' = byte ∧ valid' = valid))
include h

theorem written_of_changed (hchange : byte' ≠ byte ∨ (valid = false ∧ valid' = true)) : written := by
  obtain ⟨hwritten, -⟩ | ⟨rfl, rfl⟩ := h
  · exact hwritten
  · simp at hchange

theorem not_cleared_by_write : ¬ (valid = true ∧ valid' = false) := by
  rintro ⟨rfl, rfl⟩
  simp at h

end WindowByte

/-- Settles O46: of the effects of an access, one alone changes each register and sets each flag and valid bit, and ERR
changes by reset and by writes to CMD. -/
theorem onlyWriters : Obligations.OnlyWriters := by
  intro x s t hstep
  have heffect := perform_effect hstep
  generalize s.ccu = c at heffect ⊢
  generalize t.ccu = d at heffect ⊢
  cases heffect with
  | nothing => simp
  | clear hx =>
    have hcmd : x = .reset ∨ x.WritesTo .cmd := hx.imp_right Access.Issues.writesTo_cmd
    simp [hcmd]
  | windows w ha hb hd =>
    exact ⟨by simp, by simp, by simp, by simp, fun k => written_of_changed (ha k), fun k => written_of_changed (hb k),
      fun k => written_of_changed (hd k), by simp⟩
  | raise e hx => simp [hx]
  | loadCoefficients k hx hcalv => simp [hx, hcalv, hx.writesTo_cmd]
  | loadAdc r hx hcomplete => simp [hx, hx.writesTo_cmd]
  | writeOutputs hx => simp [hx, hx.writesTo_cmd, compensation_press_isSome]

/-- Settles O47: of the effects of an access, the end of the session clears every flag and valid bit, a loaded reading
the outputs' flags and DV, and a COMP without a pressure PV. -/
theorem onlyClearersOfValidity : Obligations.OnlyClearersOfValidity := by
  intro x s t hstep
  have heffect := perform_effect hstep
  generalize s.ccu = c at heffect ⊢
  generalize t.ccu = d at heffect ⊢
  cases heffect with
  | nothing => simp
  | clear hx => simp [hx]
  | windows w ha hb hd =>
    refine ⟨by simp, fun k hk => absurd hk (not_cleared_by_write (ha k)),
      fun k hk => absurd hk (not_cleared_by_write (hb k)), ?_, by simp⟩
    rintro (htv | hhv | ⟨k, hk⟩)
    · simp at htv
    · simp at hhv
    · exact absurd hk (not_cleared_by_write (hd k))
  | raise e hx => simp
  | loadCoefficients k hx hcalv => simp
  | loadAdc r hx hcomplete =>
    have hldraw : x.Issues .ldraw ∧ ∀ k : Fin 8, c.win.dv[k] = true := ⟨hx, hcomplete⟩
    exact ⟨by simp, by simp, by simp, fun _ => .inr hldraw, fun _ => .inr (.inl hldraw)⟩
  | writeOutputs hx =>
    refine ⟨by simp, by simp, by simp, by simp, fun ⟨_, hpv⟩ => .inr (.inr ⟨hx, ?_⟩)⟩
    simpa [compensation_press_isSome] using hpv

end Sys2Proof.Machine
end
